-- ==== Sys2Proof/Word.lean ====
section
/-! DEFINITION. The bit-vector types of the CRC4PT core, each of the one width the spec gives it (00_scope.md R4,
10_state.md R13). Bit 0 is the least significant bit (R5). -/

namespace Sys2Proof

/-- A command word or a response word: 48 bits (`CMDW`, `RSPW`; R4, R45). -/
abbrev Word := BitVec 48

/-- One symbol, standing for one character of a BitSequence: 8 bits (`SYMW`; R4, R36). -/
abbrev Symbol := BitVec 8

/-- The opcode field `OP` of a command word: 4 bits (R46). -/
abbrev Opcode := BitVec 4

/-- The `WIDTH` field and operand: 6 bits (R13, R18, R47). -/
abbrev Width := BitVec 6

/-- The `POLY` field and operand, leading bit explicit: 33 bits (`POLYW`; R4, R19, R47). -/
abbrev Poly := BitVec 33

/-- The division register `REG`: 34 bits (`REGW`; R4, R20). -/
abbrev Reg := BitVec 34

/-- The symbol counter `CNT`: 6 bits (`CNTW`; R4, R21). -/
abbrev Count := BitVec 6

/-- A remainder as the `DONE` response carries it, zero-extended to 32 bits (R37, R54). -/
abbrev Rem := BitVec 32

/-- A BitSequence: its characters as symbols, first character (most significant bit) first (R5, R35). -/
abbrev BitSequence := List Symbol

end Sys2Proof
end

