-- ==== Sys2Proof/Config.lean ====
section
/-! DEFINITION. The implementation parameters of the core (00_scope.md R4). Every one has a value in the spec. The two
parameters R4 leaves open (`UEV_PAD`, `HEX_STRIP_LEADING_ZEROS`) belong to companion functions outside the core and are
arguments of those functions, as R4 asks ("a named parameter the model takes as an argument"); only the default of the
second stands here. The core itself draws no free value (R72; 93_implementation_defined.md part 2), so there is no
uninterpreted constant. -/

namespace Sys2Proof.Config

/-- `WMAX`, the largest legal CRC width (R4). -/
abbrev wmax : Nat := 32

/-- `WMIN`, the smallest legal CRC width (R4). -/
abbrev wmin : Nat := 1

/-- `SYM0`, the symbol of the character '0' (R4, R36). -/
abbrev sym0 : Symbol := 0x30#8

/-- `SYM1`, the symbol of the character '1' (R4, R36). -/
abbrev sym1 : Symbol := 0x31#8

/-- `CNTSAT`, the value at which the symbol counter saturates (R4, R21). -/
abbrev cntSat : Nat := 32

/-- The default of the open parameter `HEX_STRIP_LEADING_ZEROS` (R4, R131). -/
abbrev hexStripLeadingZerosDefault : Bool := false

end Sys2Proof.Config
end

