-- ==== Sys2Proof/Syntax.lean ====
section
/-! DEFINITION. The commands of the core as data (30_encoding.md R46 to R50), one constructor per row of
spec/opcode_table.json, and the lines of the assembler language that stand for them (R62, R63). -/

namespace Sys2Proof

/-- The eight commands (R50). An operand is the unsigned field of the command word, nothing added or taken away (R51). -/
inductive Instr where
  /-- `NOP`, opcode 0x0, format Z (R110). -/
  | nop
  /-- `DIV w, poly`, opcode 0x1, format S (R75). -/
  | div (width : Width) (poly : Poly)
  /-- `ENC w, poly`, opcode 0x2, format S (R91). -/
  | enc (width : Width) (poly : Poly)
  /-- `VER w, poly`, opcode 0x3, format S (R101). -/
  | ver (width : Width) (poly : Poly)
  /-- `PUSH sym`, opcode 0x4, format P (R76). -/
  | push (sym : Symbol)
  /-- `END`, opcode 0x5, format Z (R78). -/
  | endOp
  /-- `ABORT`, opcode 0x6, format Z (R111). -/
  | abort
  /-- `STAT`, opcode 0x7, format Z (R112). -/
  | stat
  deriving DecidableEq, Repr

/-- The names of the four registry entries (44_companion_functions.md R120), which a start command's assembler line may
use in place of its two operands (R63). -/
inductive RegistryName where
  /-- CRC-4. -/
  | crc4
  /-- CRC-5-ITU. -/
  | crc5Itu
  /-- CRC-7. -/
  | crc7
  /-- CRC-8. -/
  | crc8
  deriving DecidableEq, Repr

/-- The three start mnemonics, which share format S (R47). -/
inductive StartKind where
  /-- `DIV`. -/
  | div
  /-- `ENC`. -/
  | enc
  /-- `VER`. -/
  | ver
  deriving DecidableEq, Repr

/-- One line of assembler (R62, R63): operands are the numbers written on the line, which need not fit their fields. -/
inductive AsmLine where
  /-- `NOP`. -/
  | nop
  /-- `DIV w, poly`, `ENC w, poly` or `VER w, poly`. -/
  | start (kind : StartKind) (w : Nat) (poly : Nat)
  /-- `DIV name`, `ENC name` or `VER name` (R63). -/
  | startNamed (kind : StartKind) (name : RegistryName)
  /-- `PUSH sym`. -/
  | push (sym : Nat)
  /-- `PUSHS "..."`, the characters as their symbol codes (R63). -/
  | pushS (codes : List Nat)
  /-- `PUSHB b` (R63). -/
  | pushB (b : Nat)
  /-- `END`. -/
  | endOp
  /-- `ABORT`. -/
  | abort
  /-- `STAT`. -/
  | stat
  /-- `.word v`. -/
  | word (v : Nat)
  deriving DecidableEq, Repr

end Sys2Proof
end

