-- ==== Sys2Proof/WellFormed.lean ====
section
/-! DEFINITION. Well-formedness. Every value of `Instr` is a legal command word: its operands have exactly the widths of
their fields (30_encoding.md R47 to R49), all values of `SYM` decode (R48), and a width or polynomial the core will not
take is decided when the command executes, "not by the decoder" (R47). What can be ill formed is an assembler line,
whose numbers may not fit (R62). -/

namespace Sys2Proof

/-- Every command is well formed (R47 to R49): the types of its operands are the fields' own. -/
def Instr.wellFormed : Instr → Bool
  | .nop => true
  | .div _ _ => true
  | .enc _ _ => true
  | .ver _ _ => true
  | .push _ => true
  | .endOp => true
  | .abort => true
  | .stat => true

/-- R62: "The assembler refuses a `w` above 63, a `poly` above `2^33 - 1` and a `sym` above 255"; R63: `PUSHB` takes 0 or
1; `.word` gives a 48-bit value. A `w` of 0 or above 32 and a malformed `poly` are not refused. -/
def AsmLine.wellFormed : AsmLine → Bool
  | .nop => true
  | .start _ w poly => decide (w ≤ 63) && decide (poly ≤ 2 ^ 33 - 1)
  | .startNamed _ _ => true
  | .push sym => decide (sym ≤ 255)
  | .pushS codes => codes.all fun c => decide (c ≤ 255)
  | .pushB b => decide (b ≤ 1)
  | .endOp => true
  | .abort => true
  | .stat => true
  | .word v => decide (v < 2 ^ 48)

end Sys2Proof
end

