-- ==== Sys2Proof/Decode.lean ====
section
/-! DEFINITION. The decoder of command words (30_encoding.md R60), total on every 48-bit word and rejecting by name, the
encoder written from the same layouts (R46 to R49, R62), the match and mask table of spec/opcode_table.json (R65), and
the host's numbering of a table word. A command word is one parallel 48-bit transfer, so there is no byte order to
decide (R42, R44). -/

namespace Sys2Proof

/-! ### Fields of a command word -/

/-- `OP = cmd[47:44]` (R46). -/
def opField (cmd : Word) : Opcode := cmd.extractLsb' 44 4

/-- `WIDTH = cmd[38:33]` of format S (R47). -/
def widthField (cmd : Word) : Width := cmd.extractLsb' 33 6

/-- `POLY = cmd[32:0]` of format S (R47). -/
def polyField (cmd : Word) : Poly := cmd.extractLsb' 0 33

/-- `SYM = cmd[7:0]` of format P (R48). -/
def symField (cmd : Word) : Symbol := cmd.extractLsb' 0 8

/-- `RSV = cmd[43:39]` of format S (R47). -/
def rsvS (cmd : Word) : BitVec 5 := cmd.extractLsb' 39 5

/-- `RSV = cmd[43:8]` of format P (R48). -/
def rsvP (cmd : Word) : BitVec 36 := cmd.extractLsb' 8 36

/-- `RSV = cmd[43:0]` of format Z (R49). -/
def rsvZ (cmd : Word) : BitVec 44 := cmd.extractLsb' 0 44

/-! ### Decoding -/

/-- The two ways a word is no command; both are `IllegalCommand` when the word is executed (R58). -/
inductive DecodeError where
  /-- `OP` in 0x8..0xF. -/
  | reservedOpcode
  /-- `OP` in 0x0..0x7 with a reserved field that is not all zero. -/
  | reservedField
  deriving DecidableEq, Repr

/-- Format S (R47): refuse a non-zero reserved field, else take the two operands. -/
def decodeS (make : Width → Poly → Instr) (cmd : Word) : Except DecodeError Instr :=
  if rsvS cmd = 0#5 then .ok (make (widthField cmd) (polyField cmd)) else .error .reservedField

/-- Format P (R48). -/
def decodeP (make : Symbol → Instr) (cmd : Word) : Except DecodeError Instr :=
  if rsvP cmd = 0#36 then .ok (make (symField cmd)) else .error .reservedField

/-- Format Z (R49). -/
def decodeZ (i : Instr) (cmd : Word) : Except DecodeError Instr :=
  if rsvZ cmd = 0#44 then .ok i else .error .reservedField

/-- The decoding procedure (R60) over the opcode map (R50). It does not look at the state. -/
def decode (cmd : Word) : Except DecodeError Instr :=
  match (opField cmd).toNat with
  | 0 => decodeZ .nop cmd
  | 1 => decodeS .div cmd
  | 2 => decodeS .enc cmd
  | 3 => decodeS .ver cmd
  | 4 => decodeP .push cmd
  | 5 => decodeZ .endOp cmd
  | 6 => decodeZ .abort cmd
  | 7 => decodeZ .stat cmd
  | _ => .error .reservedOpcode

/-! ### Encoding -/

/-- The opcode of a command (R50). -/
def Instr.opcode : Instr → Opcode
  | .nop => 0x0#4
  | .div _ _ => 0x1#4
  | .enc _ _ => 0x2#4
  | .ver _ _ => 0x3#4
  | .push _ => 0x4#4
  | .endOp => 0x5#4
  | .abort => 0x6#4
  | .stat => 0x7#4

/-- A word of format S (R46, R62). -/
def wordS (op : Opcode) (width : Width) (poly : Poly) : Word := op ++ 0#5 ++ width ++ poly

/-- A word of format P (R46, R62). -/
def wordP (op : Opcode) (sym : Symbol) : Word := op ++ 0#36 ++ sym

/-- A word of format Z (R46, R62). -/
def wordZ (op : Opcode) : Word := op ++ 0#44

/-- The command word of a command (R62). -/
def encode : Instr → Word
  | .nop => wordZ 0x0#4
  | .div w p => wordS 0x1#4 w p
  | .enc w p => wordS 0x2#4 w p
  | .ver w p => wordS 0x3#4 w p
  | .push s => wordP 0x4#4 s
  | .endOp => wordZ 0x5#4
  | .abort => wordZ 0x6#4
  | .stat => wordZ 0x7#4

/-! ### The match and mask table -/

/-- One row of spec/opcode_table.json (R65): `cmd` is the command if and only if `cmd & mask = match`. -/
structure OpcodeRow where
  mnemonic : String
  pattern : Word
  mask : Word
  deriving DecidableEq, Repr

/-- The rows of spec/opcode_table.json, in its order. -/
def opcodeTable : List OpcodeRow :=
  [ ⟨"NOP", 0x000000000000#48, 0xFFFFFFFFFFFF#48⟩
  , ⟨"DIV", 0x100000000000#48, 0xFF8000000000#48⟩
  , ⟨"ENC", 0x200000000000#48, 0xFF8000000000#48⟩
  , ⟨"VER", 0x300000000000#48, 0xFF8000000000#48⟩
  , ⟨"PUSH", 0x400000000000#48, 0xFFFFFFFFFF00#48⟩
  , ⟨"END", 0x500000000000#48, 0xFFFFFFFFFFFF#48⟩
  , ⟨"ABORT", 0x600000000000#48, 0xFFFFFFFFFFFF#48⟩
  , ⟨"STAT", 0x700000000000#48, 0xFFFFFFFFFFFF#48⟩ ]

/-- R65: whether a word is the row's command. -/
def OpcodeRow.accepts (row : OpcodeRow) (cmd : Word) : Bool := (cmd &&& row.mask) == row.pattern

/-- The row's mnemonic of a command (R50). -/
def Instr.mnemonic : Instr → String
  | .nop => "NOP"
  | .div _ _ => "DIV"
  | .enc _ _ => "ENC"
  | .ver _ _ => "VER"
  | .push _ => "PUSH"
  | .endOp => "END"
  | .abort => "ABORT"
  | .stat => "STAT"

/-! ### The host's numbering of a table word -/

/-- The 48-bit command word whose low `nbits` bits are those of `w` and whose other bits are 0. The table numbers bit 0
as the least significant bit of the one word an instruction has, which is the spec's own numbering (R5, R65). -/
def tableWord (nbits w : Nat) : Word := BitVec.ofNat 48 (w % 2 ^ nbits)

/-- The instruction the decoder reads from a table word; no instruction is longer than 48 bits (R45). -/
def decodeTableWord (nbits w : Nat) : Option Instr :=
  if nbits ≤ 48 then (decode (tableWord nbits w)).toOption else none

end Sys2Proof
end

