-- ==== Sys2Proof/Machine/State.lean ====
section
/-! DEFINITION. The state of the core as plain data: the six fields of 10_state.md R13, the words the host still has to
present on the command channel (20_memory.md R32) and the words emitted on the response channel (R33). The core has no
general registers, no program counter and no memory (R14, R15, R30). -/

namespace Sys2Proof.Machine

/-- `PHASE` (R16): whether an operation is open. -/
inductive Phase where
  /-- 0: no operation is open. -/
  | idle
  /-- 1: an operation is open. -/
  | run
  deriving DecidableEq, Repr

/-- `MODE` (R17): which operation is open. -/
inductive Mode where
  /-- 0: none. -/
  | none
  /-- 1: a raw division. -/
  | div
  /-- 2: an encoding. -/
  | enc
  /-- 3: a verification. -/
  | ver
  deriving DecidableEq, Repr

/-- Why a step stops with a fault. The spec stops the core in no reachable state (R149, R151); every error the spec
describes is a next state (R147). -/
inductive Fault where
  /-- Raised by `END` alone, in a state with `PHASE = RUN` and `MODE = NONE`: R78 has no arm for it and no run reaches it
  (R28 item 2). Safe: the model stops where the spec says nothing. -/
  | endWithoutMode
  deriving DecidableEq, Repr

/-- Why a step is refused. -/
inductive Refusal where
  /-- Raised by an arm of `exec` whose instruction has no meaning yet; no arm does. Safe: nothing can be proved of such an
  instruction. -/
  | notModelled (mnemonic : String)
  deriving DecidableEq, Repr

/-- The state (R13) with the two channels. -/
structure State where
  /-- `PHASE`, 1 bit (R16). -/
  phase : Phase
  /-- `MODE`, 2 bits (R17). -/
  mode : Mode
  /-- `WIDTH`, 6 bits (R18). -/
  width : Width
  /-- `POLY`, 33 bits (R19). -/
  poly : Poly
  /-- `REG`, 34 bits (R20). -/
  reg : Reg
  /-- `CNT`, 6 bits (R21). -/
  cnt : Count
  /-- The command words not yet accepted, the next one first: the program, "a list" (R32). Not a field of R13. -/
  commands : List Word
  /-- The response channel, "an append-only list, the response trace", the oldest word first (R33). Not a field of
  R13. -/
  responses : List Word
  deriving DecidableEq, Repr

/-- The state after reset (R26): `S0`, and no response. No command word has been presented yet (R166). -/
def State.reset : State where
  phase := .idle
  mode := .none
  width := 0#6
  poly := 0#33
  reg := 0#34
  cnt := 0#6
  commands := []
  responses := []

end Sys2Proof.Machine
end

