-- ==== Sys2Proof/Machine/Errors.lean ====
section
/-! DEFINITION. The error classes and their causes (60_exceptions.md R141, R142). -/

namespace Sys2Proof.Machine

/-- The four error classes (R141). The first two are the document's own. -/
inductive ErrorClass where
  | invalidInput
  | invalidConfig
  | illegalCommand
  | illegalSequence
  deriving DecidableEq, Repr

/-- The ten causes (R142), in the table's order. -/
inductive Cause where
  | nonbinarySymbol
  | emptyData
  | shortCodeword
  | widthZero
  | widthTooLarge
  | polyMalformed
  | reservedOpcode
  | reservedField
  | notIdle
  | notRunning
  deriving DecidableEq, Repr

/-- The class a cause belongs to (R142). -/
def Cause.errorClass : Cause → ErrorClass
  | .nonbinarySymbol => .invalidInput
  | .emptyData => .invalidInput
  | .shortCodeword => .invalidInput
  | .widthZero => .invalidConfig
  | .widthTooLarge => .invalidConfig
  | .polyMalformed => .invalidConfig
  | .reservedOpcode => .illegalCommand
  | .reservedField => .illegalCommand
  | .notIdle => .illegalSequence
  | .notRunning => .illegalSequence

/-- `CODE`, the value of `ERR[7:4]` (R141). -/
def ErrorClass.code : ErrorClass → BitVec 4
  | .invalidInput => 1#4
  | .invalidConfig => 2#4
  | .illegalCommand => 3#4
  | .illegalSequence => 4#4

/-- `SUB`, the value of `ERR[3:0]` (R142). -/
def Cause.sub : Cause → BitVec 4
  | .nonbinarySymbol => 1#4
  | .emptyData => 2#4
  | .shortCodeword => 3#4
  | .widthZero => 1#4
  | .widthTooLarge => 2#4
  | .polyMalformed => 3#4
  | .reservedOpcode => 1#4
  | .reservedField => 2#4
  | .notIdle => 1#4
  | .notRunning => 2#4

/-- `CAUSE`, the byte `ERR[7:0]`: "its high four bits are `CODE`, its low four bits `SUB`" (R142). -/
def Cause.byte (c : Cause) : BitVec 8 := c.errorClass.code ++ c.sub

/-- The cause a word that is no command raises (R58, R60). -/
def decodeCause : DecodeError → Cause
  | .reservedOpcode => .reservedOpcode
  | .reservedField => .reservedField

end Sys2Proof.Machine
end

