-- ==== Sys2Proof/Machine/Operands.lean ====
section
/-! DEFINITION. Operand forms: the numbers of `PHASE` and `MODE` (10_state.md R16, R17), symbols (20_memory.md R36),
remainders as integers and as strings (R37), the saturating counter (R21), and the configuration check of the start
commands (60_exceptions.md R144). -/

namespace Sys2Proof.Machine

/-- The bit that stands for a phase (R16). -/
def Phase.bits : Phase → BitVec 1
  | .idle => 0#1
  | .run => 1#1

/-- The two bits that stand for a mode (R17). -/
def Mode.bits : Mode → BitVec 2
  | .none => 0#2
  | .div => 1#2
  | .enc => 2#2
  | .ver => 3#2

/-- `bit_of`: the bit a symbol stands for, none for the 254 symbols that are neither '0' nor '1' (R6, R36). -/
def bitOf? (sym : Symbol) : Option Bool :=
  if sym = Config.sym0 then some false else if sym = Config.sym1 then some true else none

/-- `sym_of`: the symbol of a bit (R6). -/
def symOf (b : Bool) : Symbol := if b then Config.sym1 else Config.sym0

/-- The bits a sequence of symbols spells, none if one of them is not binary (R36). -/
def bitsOf? : BitSequence → Option (List Bool)
  | [] => some []
  | sym :: rest =>
    match bitOf? sym, bitsOf? rest with
    | some b, some bs => some (b :: bs)
    | _, _ => none

/-- `zext_32(REM)` with `REM = REG[WIDTH-1:0]` (R37, R54). -/
def remOf (width : Nat) (reg : Reg) : Rem := (reg.setWidth width).setWidth 32

/-- `remstr(v, W)`: `W` characters, character `k` standing for bit `W-1-k` (R37). -/
def remstr {n : Nat} (v : BitVec n) (width : Nat) : BitSequence :=
  (List.range width).map fun k => symOf (v.getLsbD (width - 1 - k))

/-- `min(CNT + 1, 32)` (R21). -/
def countNext (cnt : Count) : Count := BitVec.ofNat 6 (min (cnt.toNat + 1) Config.cntSat)

/-- The configuration check (R144), in its order: the first check that fails, none if all pass. -/
def checkConfig (width : Width) (poly : Poly) : Option Cause :=
  if width.toNat < Config.wmin then some .widthZero
  else if Config.wmax < width.toNat then some .widthTooLarge
  else if poly.getLsbD width.toNat = false ∨ poly >>> (width.toNat + 1) ≠ 0#33 then some .polyMalformed
  else none

end Sys2Proof.Machine
end

