-- ==== Sys2Proof/Machine/Flags.lean ====
section
/-! DEFINITION. The one condition flag, `ZERO`, which is computed by `END` and not stored (10_state.md R23). -/

namespace Sys2Proof.Machine

/-- `ZERO = (REM == 0)` (R23). -/
def zeroFlag (rem : Rem) : Bool := rem == 0#32

end Sys2Proof.Machine
end

