-- ==== Sys2Proof/Machine/Responses.lean ====
section
/-! DEFINITION. The four response words (30_encoding.md R52 to R56) and the fields a host reads from one. -/

namespace Sys2Proof.Machine

/-- The value of `KIND` of `STATUS` (R52). -/
def kindStatus : BitVec 4 := 0xA#4

/-- The value of `KIND` of `CWSYM` (R52). -/
def kindCwsym : BitVec 4 := 0xC#4

/-- The value of `KIND` of `DONE` (R52). -/
def kindDone : BitVec 4 := 0xD#4

/-- The value of `KIND` of `ERR` (R52). -/
def kindErr : BitVec 4 := 0xE#4

/-- `STATUS` (R53): `KIND`, `MODE`, `WIDTH`, 29 zero bits, `PHASE`, `CNT`. -/
def statusWord (mode : Mode) (width : Width) (phase : Phase) (cnt : Count) : Word :=
  kindStatus ++ mode.bits ++ width ++ 0#29 ++ phase.bits ++ cnt

/-- `DONE` (R54): `KIND`, `MODE`, `WIDTH`, 3 zero bits, `ZERO`, `zext_32(REM)`. -/
def doneWord (mode : Mode) (width : Width) (rem : Rem) : Word :=
  kindDone ++ mode.bits ++ width ++ 0#3 ++ BitVec.ofBool (zeroFlag rem) ++ rem

/-- `ERR` (R55): `KIND`, `MODE`, 22 zero bits, `SYM`, `OP`, `CAUSE`. -/
def errWord (mode : Mode) (sym : Symbol) (op : Opcode) (cause : Cause) : Word :=
  kindErr ++ mode.bits ++ 0#22 ++ sym ++ op ++ cause.byte

/-- `CWSYM` (R56): `KIND`, 36 zero bits, `SYM`. -/
def cwsymWord (sym : Symbol) : Word := kindCwsym ++ 0#36 ++ sym

/-- `KIND = rsp[47:44]` (R52). -/
def rspKind (rsp : Word) : BitVec 4 := rsp.extractLsb' 44 4

/-- `MODE = rsp[43:42]` of `STATUS`, `DONE` and `ERR` (R53 to R55). -/
def rspMode (rsp : Word) : BitVec 2 := rsp.extractLsb' 42 2

/-- `WIDTH = rsp[41:36]` of `STATUS` and `DONE` (R53, R54). -/
def rspWidth (rsp : Word) : Width := rsp.extractLsb' 36 6

/-- `ZERO = rsp[32]` of `DONE` (R54). -/
def rspZero (rsp : Word) : Bool := rsp.getLsbD 32

/-- `REM = rsp[31:0]` of `DONE` (R54). -/
def rspRem (rsp : Word) : Rem := rsp.extractLsb' 0 32

/-- `SYM = rsp[7:0]` of `CWSYM` (R56). -/
def rspSym (rsp : Word) : Symbol := rsp.extractLsb' 0 8

/-- `SYM = rsp[19:12]` of `ERR` (R55). -/
def rspErrSym (rsp : Word) : Symbol := rsp.extractLsb' 12 8

/-- `OP = rsp[11:8]` of `ERR` (R55). -/
def rspOp (rsp : Word) : Opcode := rsp.extractLsb' 8 4

/-- `CAUSE = rsp[7:0]` of `ERR` (R55). -/
def rspCause (rsp : Word) : BitVec 8 := rsp.extractLsb' 0 8

/-- `CNT = rsp[5:0]` of `STATUS` (R53). -/
def rspCount (rsp : Word) : Count := rsp.extractLsb' 0 6

/-- `PHASE = rsp[6]` of `STATUS` (R53). -/
def rspPhase (rsp : Word) : BitVec 1 := rsp.extractLsb' 6 1

/-- The `SYM` values of the `CWSYM` words of a response trace, in order (R56, R97). -/
def cwsymSymbols (rsps : List Word) : BitSequence :=
  (rsps.filter fun r => rspKind r == kindCwsym).map rspSym

/-- A response trace without its `STATUS` words (R97, R106, R113). -/
def withoutStatus (rsps : List Word) : List Word :=
  rsps.filter fun r => !(rspKind r == kindStatus)

end Sys2Proof.Machine
end

