-- ==== Sys2Proof/Machine/Ops.lean ====
section
/-! DEFINITION. The shared operations: emitting responses (20_memory.md R33), the return to the idle state (10_state.md
R22), raising an error (60_exceptions.md R147), the one-bit division step (40_division_engine.md R70) and the start
sequence of the three start commands (R75). -/

namespace Sys2Proof.Machine

/-- The outcome of a step of this core. -/
abbrev Result := Host.Outcome State Fault Refusal

/-- `emit`: append one response word to the channel (R6, R33). -/
def emit (rsp : Word) (s : State) : State := { s with responses := s.responses ++ [rsp] }

/-- Append response words in the order they are emitted (R6, R39). -/
def emitAll (rsps : List Word) (s : State) : State := { s with responses := s.responses ++ rsps }

/-- `state <- S0`: all six fields zero; the channels are no field (R22). -/
def toIdle (s : State) : State :=
  { s with phase := .idle, mode := .none, width := 0#6, poly := 0#33, reg := 0#34, cnt := 0#6 }

/-- `raise` (R147): one `ERR` word with `MODE` as it was before the command, and the state becomes `S0`. `sym` is the
offending symbol for `NONBINARY_SYMBOL` and 0 for every other cause. There is no handler and nothing to return from
(R148, R150), so this is both the entry and the return. -/
def raise (op : Opcode) (cause : Cause) (sym : Symbol) (s : State) : State :=
  toIdle (emit (errWord s.mode sym op cause) s)

/-- `lfsr_step(r, b, W, P)` (R70): shift left by one inside 34 bits and bring `b` into bit 0; if bit `W` of that is set,
XOR with the polynomial. -/
def lfsrStep (r : Reg) (b : Bool) (width : Nat) (poly : Poly) : Reg :=
  let t := (r <<< 1) ||| (BitVec.ofBool b).setWidth 34
  if t.getLsbD width then t ^^^ poly.setWidth 34 else t

/-- `lfsr_step` over a list of bits, first bit first (R71). -/
def shiftIn (r : Reg) (bits : List Bool) (width : Nat) (poly : Poly) : Reg :=
  bits.foldl (fun r b => lfsrStep r b width poly) r

/-- `repeat W times: r <- lfsr_step(r, 0, W, P)` (R78, R94). -/
def shiftZeros (r : Reg) (width : Nat) (poly : Poly) : Reg :=
  shiftIn r (List.replicate width false) width poly

/-- Latch a checked configuration and open the operation (the last line of R75's `start`). -/
def openOperation (mode : Mode) (width : Width) (poly : Poly) (s : State) : State :=
  { s with phase := .run, mode := mode, width := width, poly := poly, reg := 0#34, cnt := 0#6 }

/-- `start(m, W, P)` (R75), shared by `DIV`, `ENC` and `VER`: the sequence check, then the configuration check. -/
def start (op : Opcode) (mode : Mode) (width : Width) (poly : Poly) (s : State) : State :=
  match s.phase with
  | .run => raise op .notIdle 0#8 s
  | .idle =>
    match checkConfig width poly with
    | some cause => raise op cause 0#8 s
    | none => openOperation mode width poly s

/-- The register and counter update of an accepted `PUSH` (R76). -/
def acceptBit (b : Bool) (s : State) : State :=
  { s with reg := lfsrStep s.reg b s.width.toNat s.poly, cnt := countNext s.cnt }

/-- Report a remainder and return to `S0`: the last two lines of `END` (R78). -/
def finish (rem : Rem) (s : State) : State :=
  toIdle (emit (doneWord s.mode s.width rem) s)

end Sys2Proof.Machine
end

