-- ==== Sys2Proof/Machine/Control.lean ====
section
/-! DEFINITION. The control commands (43_control.md): `NOP`, `ABORT`, `STAT`. -/

namespace Sys2Proof.Machine

/-- `NOP` (R110): no field changes, no response. -/
def execNop (s : State) : Result := .next s

/-- `ABORT` (R111): drop the open operation, if there is one; no response in either phase. -/
def execAbort (s : State) : Result := .next (toIdle s)

/-- `STAT` (R112): report `MODE`, `WIDTH`, `PHASE` and `CNT`; no field changes. -/
def execStat (s : State) : Result := .next (emit (statusWord s.mode s.width s.phase s.cnt) s)

end Sys2Proof.Machine
end

