-- ==== Sys2Proof/Machine/Encoder.lean ====
section
/-! DEFINITION. The encoder (41_encoder.md): `ENC`, and what `PUSH` and `END` do in `ENC` mode. -/

namespace Sys2Proof.Machine

/-- `ENC w, poly` (R91). -/
def execEnc (width : Width) (poly : Poly) (s : State) : Result :=
  .next (start 0x2#4 .enc width poly s)

/-- `PUSH` in `ENC` mode echoes the symbol as one `CWSYM` word (R93). -/
def echoSymbol (sym : Symbol) (s : State) : State := emit (cwsymWord sym) s

/-- `END` in `ENC` mode (R94): refuse empty data; divide `WIDTH` zero bits more; emit the CRC characters, then `DONE`. -/
def endEncode (s : State) : State :=
  if s.cnt = 0#6 then raise 0x5#4 .emptyData 0#8 s
  else
    let width := s.width.toNat
    let rem := remOf width (shiftZeros s.reg width s.poly)
    finish rem (emitAll ((remstr rem width).map cwsymWord) s)

end Sys2Proof.Machine
end

