-- ==== Sys2Proof/Machine/Verifier.lean ====
section
/-! DEFINITION. The verifier (42_verifier.md): `VER`, and what `END` does in `VER` mode. -/

namespace Sys2Proof.Machine

/-- `VER w, poly` (R101). -/
def execVer (width : Width) (poly : Poly) (s : State) : Result :=
  .next (start 0x3#4 .ver width poly s)

/-- `END` in `VER` mode (R102): refuse a codeword shorter than `WIDTH`; report the remainder. -/
def endVerify (s : State) : State :=
  if s.cnt.toNat < s.width.toNat then raise 0x5#4 .shortCodeword 0#8 s
  else finish (remOf s.width.toNat s.reg) s

end Sys2Proof.Machine
end

