-- ==== Sys2Proof/Machine/Division.lean ====
section
/-! DEFINITION. The division engine (40_division_engine.md): `DIV`, `PUSH` and `END`, the last two shared by all three
operations. -/

namespace Sys2Proof.Machine

/-- `DIV w, poly` (R75). -/
def execDiv (width : Width) (poly : Poly) (s : State) : Result :=
  .next (start 0x1#4 .div width poly s)

/-- `PUSH sym` (R76), with the echo of `ENC` mode (R93). -/
def execPush (sym : Symbol) (s : State) : Result :=
  match s.phase with
  | .idle => .next (raise 0x4#4 .notRunning 0#8 s)
  | .run =>
    match bitOf? sym with
    | none => .next (raise 0x4#4 .nonbinarySymbol sym s)
    | some b => .next (if s.mode = .enc then echoSymbol sym (acceptBit b s) else acceptBit b s)

/-- `END` in `DIV` mode (R78): it never raises, over no symbols either (R77). -/
def endDivide (s : State) : State := finish (remOf s.width.toNat s.reg) s

/-- `END` (R78). R78 has no arm for `MODE = NONE` in `RUN`, which no run reaches (R28): the model stops there. -/
def execEnd (s : State) : Result :=
  match s.phase with
  | .idle => .next (raise 0x5#4 .notRunning 0#8 s)
  | .run =>
    match s.mode with
    | .none => .fault .endWithoutMode
    | .div => .next (endDivide s)
    | .enc => .next (endEncode s)
    | .ver => .next (endVerify s)

end Sys2Proof.Machine
end

