-- ==== Sys2Proof/Machine/Dispatch.lean ====
section
/-! DEFINITION. One arm per command of 30_encoding.md R50. -/

namespace Sys2Proof.Machine

/-- What a command does. -/
def exec (i : Instr) (s : State) : Host.Outcome State Fault Refusal :=
  match i with
  | .nop => Sys2Proof.Machine.execNop s
  | .div width poly => Sys2Proof.Machine.execDiv width poly s
  | .enc width poly => Sys2Proof.Machine.execEnc width poly s
  | .ver width poly => Sys2Proof.Machine.execVer width poly s
  | .push sym => Sys2Proof.Machine.execPush sym s
  | .endOp => Sys2Proof.Machine.execEnd s
  | .abort => Sys2Proof.Machine.execAbort s
  | .stat => Sys2Proof.Machine.execStat s

end Sys2Proof.Machine
end

