-- ==== Sys2Proof/Machine/Accept.lean ====
section
/-! DEFINITION. Accepting a command word: the transfer on the command channel (20_memory.md R32), decoding, and the
refusal of a word that is no command (30_encoding.md R58, R60). -/

namespace Sys2Proof.Machine

/-- Take the next word of the command channel, if the host presents one (R32). -/
def takeCommand (s : State) : Option (Word × State) :=
  match s.commands with
  | [] => none
  | cmd :: rest => some (cmd, { s with commands := rest })

/-- Execute an accepted word completely: the command it decodes to, or the `IllegalCommand` it raises before anything else
(R58, R145, R146). -/
def acceptWord (cmd : Word) (s : State) : Result :=
  match decode cmd with
  | .ok i => exec i s
  | .error e => .next (raise (opField cmd) (decodeCause e) 0#8 s)

/-- The host presents a word ahead of every word it still has to present (R32). -/
def presentWord (cmd : Word) (s : State) : State := { s with commands := cmd :: s.commands }

end Sys2Proof.Machine
end

