-- ==== Sys2Proof/Machine/Step.lean ====
section
/-! DEFINITION. One step of the core: one accepted command word (20_memory.md R31, R38). -/

namespace Sys2Proof.Machine

/-- One step: accept the next command word and execute it; with no word presented the core waits, and "idle time has no
effect on state" (R32, R166). -/
def step (s : State) : Host.Outcome State Fault Refusal :=
  match takeCommand s with
  | none => .next s
  | some (cmd, t) => acceptWord cmd t

/-- `s` with a table word presented as the next command word, so that the very next step runs it. The program is the host's
list of command words (R32, R44): nothing is loaded. -/
def State.withFetchWord (s : State) (nbits w : Nat) : State := presentWord (tableWord nbits w) s

end Sys2Proof.Machine
end

