-- ==== Sys2Proof/Machine/Reference.lean ====
section
/-! DEFINITION. The three reference functions of the document, as 40_division_engine.md R71, 41_encoder.md R90 and
42_verifier.md R100 give them: pure functions over BitSequences, with a width and a polynomial that are not yet checked.
The machine's meanings do not call them; statements compare the two (R7, R79, R97, R106). -/

namespace Sys2Proof.Machine

/-- The register after dividing a list of bits, from the register 0 (R71). -/
def divideBits (bits : List Bool) (poly : Poly) (width : Nat) : Reg := shiftIn 0#34 bits width poly

/-- `divide(bits, P, W)` (R71), its two failures in the order the rule's pseudocode lists them. -/
def divide (bits : BitSequence) (poly : Poly) (width : Nat) : Except ErrorClass BitSequence :=
  match bitsOf? bits with
  | none => .error .invalidInput
  | some bs =>
    if width = 0 ∨ Config.wmax < width then .error .invalidConfig
    else .ok (remstr (divideBits bs poly width) width)

/-- `zeros(W)`: the string of `W` characters '0' (R90). -/
def zeros (width : Nat) : BitSequence := List.replicate width Config.sym0

/-- What `encode` returns (R90). -/
structure EncodeResult where
  crc : BitSequence
  codeword : BitSequence
  deriving DecidableEq, Repr

/-- `encode(data, P, W)` (R90). -/
def encodeData (data : BitSequence) (poly : Poly) (width : Nat) : Except ErrorClass EncodeResult :=
  if data = [] ∨ bitsOf? data = none then .error .invalidInput
  else
    match divide (data ++ zeros width) poly width with
    | .error e => .error e
    | .ok crc => .ok { crc := crc, codeword := data ++ crc }

/-- What `verify` returns (R100). -/
structure VerifyResult where
  remainder : BitSequence
  isValid : Bool
  deriving DecidableEq, Repr

/-- Whether a remainder string "is all zeros" (R100). -/
def allZeros (bits : BitSequence) : Bool := bits.all fun sym => sym == Config.sym0

/-- `verify(codeword, P, W)` (R100). -/
def verify (codeword : BitSequence) (poly : Poly) (width : Nat) : Except ErrorClass VerifyResult :=
  if codeword.length < width ∨ bitsOf? codeword = none then .error .invalidInput
  else
    match divide codeword poly width with
    | .error e => .error e
    | .ok remainder => .ok { remainder := remainder, isValid := allZeros remainder }

end Sys2Proof.Machine
end

