-- ==== Sys2Proof/Machine/Companion.lean ====
section
/-! DEFINITION. The companion functions of 44_companion_functions.md: the registry (R120, R121), the error injector and the
analyzer (R124, R126), the generator of undetectable vectors (R127) and the hexadecimal helpers (R130, R131). "Nothing in
this file is hardware": no step of the machine calls them. -/

namespace Sys2Proof.Machine

/-! ### The registry -/

/-- A PolynomialConfig: the two fields the core reads (R2) and its name. `binaryRepr` is computed (R121); the text of
`formula` is not in the source. -/
structure PolynomialConfig where
  name : String
  polynomial : Poly
  width : Width
  deriving DecidableEq, Repr

/-- The registry (R120), in the order of its index column. -/
def registry : RegistryName → PolynomialConfig
  | .crc4 => { name := "CRC-4", polynomial := 0b10011#33, width := 4#6 }
  | .crc5Itu => { name := "CRC-5-ITU", polynomial := 0b100101#33, width := 5#6 }
  | .crc7 => { name := "CRC-7", polynomial := 0b10001001#33, width := 7#6 }
  | .crc8 => { name := "CRC-8", polynomial := 0b100000111#33, width := 8#6 }

/-- `binaryRepr = remstr(polynomial, width + 1)` (R121). -/
def binaryRepr (poly : Poly) (width : Nat) : BitSequence := remstr poly (width + 1)

/-! ### The error injector -/

/-- `flip('0') = '1'`, `flip('1') = '0'` (R124); other characters are outside the injector's domain and stay. -/
def flipSymbol (sym : Symbol) : Symbol :=
  if sym = Config.sym0 then Config.sym1 else if sym = Config.sym1 then Config.sym0 else sym

/-- The injector from position `k` on. -/
def injectFrom (positions : List Nat) : Nat → BitSequence → BitSequence
  | _, [] => []
  | k, sym :: rest =>
    (if k ∈ positions then flipSymbol sym else sym) :: injectFrom positions (k + 1) rest

/-- `injectErrors(codeword, positions)` (R124). `positions` is read as a set: only membership counts (R125), and a position
at or beyond the length is in no way looked at. -/
def injectErrors (codeword : BitSequence) (positions : List Nat) : BitSequence :=
  injectFrom positions 0 codeword

/-- The error pattern `e` of the injector: '1' exactly at the in-range positions (R124). -/
def errorPattern (length : Nat) (positions : List Nat) : BitSequence :=
  injectErrors (zeros length) positions

/-- `a xor b`, character by character (R74, R108, R124). -/
def xorSequence (a b : BitSequence) : BitSequence :=
  List.zipWith (fun x y => symOf (x != y)) a b

/-- The analyzer (R126): the verifier's answer on the corrupted codeword. -/
def analyze (codeword : BitSequence) (positions : List Nat) (poly : Poly) (width : Nat) : Except ErrorClass VerifyResult :=
  verify (injectErrors codeword positions) poly width

/-! ### The generator of undetectable vectors -/

/-- What the generator returns (R127). -/
structure UndetectableResult where
  vector : BitSequence
  isUndetectable : Bool
  deriving DecidableEq, Repr

/-- `generateUndetectableVector(config)` (R127); `uevPad` is the open parameter `UEV_PAD`. -/
def generateUndetectableVector (uevPad : Nat) (poly : Poly) (width : Nat) : Except ErrorClass UndetectableResult :=
  if width = 0 ∨ Config.wmax < width then .error .invalidConfig
  else
    let vector := binaryRepr poly width ++ zeros uevPad
    match divide vector poly width with
    | .error e => .error e
    | .ok remainder => .ok { vector := vector, isUndetectable := allZeros remainder }

/-! ### Hexadecimal helpers -/

/-- The value of a hexadecimal digit, in either case (R130). -/
def hexDigitValue? (c : Char) : Option (BitVec 4) :=
  let n := c.toNat
  if 0x30 ≤ n ∧ n ≤ 0x39 then some (BitVec.ofNat 4 (n - 0x30))
  else if 0x41 ≤ n ∧ n ≤ 0x46 then some (BitVec.ofNat 4 (n - 0x41 + 10))
  else if 0x61 ≤ n ∧ n ≤ 0x66 then some (BitVec.ofNat 4 (n - 0x61 + 10))
  else none

/-- `hexToBinary(h)` (R130): four characters a digit, most significant bit first. -/
def hexToBinary : List Char → Except ErrorClass BitSequence
  | [] => .ok []
  | c :: rest =>
    match hexDigitValue? c, hexToBinary rest with
    | some v, .ok bits => .ok (remstr v 4 ++ bits)
    | _, _ => .error .invalidInput

/-- The sixteen digits `0123456789ABCDEF` (R131). -/
def hexDigits : List Char :=
  ['0', '1', '2', '3', '4', '5', '6', '7', '8', '9', 'A', 'B', 'C', 'D', 'E', 'F']

/-- The digit of a group of four bits, most significant bit first (R131). -/
def hexDigitOf (a b c d : Bool) : Char :=
  hexDigits.getD (8 * a.toNat + 4 * b.toNat + 2 * c.toNat + d.toNat) '0'

/-- "map each group of four, first to last, to one digit" (R131). -/
def groupDigits : List Bool → List Char
  | a :: b :: c :: d :: rest => hexDigitOf a b c d :: groupDigits rest
  | _ => []

/-- "pad `b` on the left with '0' to the next multiple of four characters" (R131). -/
def padToFour (bits : List Bool) : List Bool :=
  List.replicate ((4 - bits.length % 4) % 4) false ++ bits

/-- "leading '0' digits are then removed down to one digit" (R131). -/
def stripLeadingZeros : List Char → List Char
  | c :: d :: rest => if c = '0' then stripLeadingZeros (d :: rest) else c :: d :: rest
  | digits => digits

/-- `binaryToHex(b)` (R131); `strip` is the open parameter `HEX_STRIP_LEADING_ZEROS`. -/
def binaryToHex (strip : Bool) (bits : BitSequence) : Except ErrorClass (List Char) :=
  match bitsOf? bits with
  | none => .error .invalidInput
  | some bs =>
    let digits := groupDigits (padToFour bs)
    .ok (if strip then stripLeadingZeros digits else digits)

/-- `h.toUpperCase()` on hexadecimal digits (R132). -/
def upperHex (c : Char) : Char :=
  if 0x61 ≤ c.toNat ∧ c.toNat ≤ 0x66 then Char.ofNat (c.toNat - 0x20) else c

end Sys2Proof.Machine
end

