-- ==== Sys2Proof/Machine/Operation.lean ====
section
/-! DEFINITION. The shape of an operation (70_reset_and_hazards.md R171), in which the statements about whole operations
speak, and the assembler language (30_encoding.md R62, R63) at the level of its lines. -/

namespace Sys2Proof

/-- The commands that may stand between the start command and `END`: `PUSH | NOP | STAT` (R171, R172). -/
def Instr.isBody : Instr → Bool
  | .push _ => true
  | .nop => true
  | .stat => true
  | _ => false

/-- The commands that change nothing: `NOP | STAT` (R113). -/
def Instr.isTransparent : Instr → Bool
  | .nop => true
  | .stat => true
  | _ => false

end Sys2Proof

namespace Sys2Proof.Machine

/-- The mode a start command opens (R75, R91, R101). -/
def startMode : StartKind → Mode
  | .div => .div
  | .enc => .enc
  | .ver => .ver

/-- The start command of a kind. -/
def startInstr (kind : StartKind) (width : Width) (poly : Poly) : Instr :=
  match kind with
  | .div => .div width poly
  | .enc => .enc width poly
  | .ver => .ver width poly

/-- The symbols the `PUSH` commands of a list carry, in order (R35, R171). -/
def symbolsOf : List Instr → BitSequence
  | [] => []
  | .push sym :: rest => sym :: symbolsOf rest
  | _ :: rest => symbolsOf rest

/-- A well-formed operation `start (PUSH | NOP | STAT)* END` as its command words (R171). -/
def operationWords (kind : StartKind) (width : Width) (poly : Poly) (body : List Instr) : List Word :=
  encode (startInstr kind width poly) :: (body.map encode ++ [encode .endOp])

/-- The document's call that a well-formed operation corresponds to (R171), of which only success or failure counts
here. -/
def referenceCall (kind : StartKind) (bits : BitSequence) (poly : Poly) (width : Nat) : Except ErrorClass Unit :=
  match kind with
  | .div => (divide bits poly width).map fun _ => ()
  | .enc => (encodeData bits poly width).map fun _ => ()
  | .ver => (verify bits poly width).map fun _ => ()

/-! ### The assembler -/

/-- The commands of one line (R62, R63). `.word` is no command and has none. -/
def lineInstrs : AsmLine → List Instr
  | .nop => [.nop]
  | .start kind w poly => [startInstr kind (BitVec.ofNat 6 w) (BitVec.ofNat 33 poly)]
  | .startNamed kind name => [startInstr kind (registry name).width (registry name).polynomial]
  | .push sym => [.push (BitVec.ofNat 8 sym)]
  | .pushS codes => codes.map fun c => .push (BitVec.ofNat 8 c)
  | .pushB b => [.push (BitVec.ofNat 8 (0x30 + b))]
  | .endOp => [.endOp]
  | .abort => [.abort]
  | .stat => [.stat]
  | .word _ => []

/-- Assemble one line: its words, none where the assembler refuses it (R62, R63). -/
def assemble (line : AsmLine) : Option (List Word) :=
  if line.wellFormed then
    match line with
    | .word v => some [BitVec.ofNat 48 v]
    | l => some ((lineInstrs l).map encode)
  else none

end Sys2Proof.Machine
end

