-- ==== Sys2Proof/Machine/Ports.lean ====
section
/-! DEFINITION. The ports (20_memory.md R31 to R34) and the reset input (70_reset_and_hazards.md R165 to R167), one rising
edge of `clk` at a time. The step function has no clock; this layer says what a host sees of it through the two
valid/ready channels. How many words an implementation holds pending, and so when it lowers `cmd_ready`, is not fixed
(R34): the wires the core drives are given with the edge, and `Edge.legal` says which values the rules allow. -/

namespace Sys2Proof.Machine

/-- The values of the ports at one rising edge of `clk` (R31). -/
structure Edge where
  rst : Bool
  cmdValid : Bool
  cmdReady : Bool
  cmdData : Word
  rspValid : Bool
  rspReady : Bool
  rspData : Word
  deriving DecidableEq, Repr

/-- The core behind its ports, since the last reset. -/
structure PortState where
  /-- The core; its `responses` are the words emitted and not yet taken (R25). -/
  core : State
  /-- The command words transferred since the last reset, in order (R32). -/
  accepted : List Word
  /-- The response words transferred since the last reset, in order (R33). -/
  delivered : List Word
  deriving DecidableEq, Repr

/-- The core behind its ports right after reset (R26, R165). -/
def PortState.reset : PortState := { core := State.reset, accepted := [], delivered := [] }

/-- A command word is transferred "at which `cmd_valid = 1`, `cmd_ready = 1` and `rst = 0`" (R32). -/
def Edge.takesCommand (e : Edge) : Bool := e.cmdValid && e.cmdReady && !e.rst

/-- A response word is transferred "at which `rsp_valid = 1`, `rsp_ready = 1` and `rst = 0`" (R33). -/
def Edge.takesResponse (e : Edge) : Bool := e.rspValid && e.rspReady && !e.rst

/-- The values the core may drive: in reset no command is accepted and no response delivered (R165); until the first
command after a reset `cmd_ready = 1` (R166); a response presented is the oldest pending word (R33). -/
def Edge.legal (e : Edge) (p : PortState) : Bool :=
  (!e.rst || (!e.cmdReady && !e.rspValid)) &&
  (e.rst || !p.accepted.isEmpty || e.cmdReady) &&
  (!e.rspValid || p.core.responses.head? == some e.rspData)

/-- The response transfer of an edge (R33): the oldest pending word leaves the channel. -/
def transferResponse (e : Edge) (p : PortState) : PortState :=
  if e.takesResponse then
    { p with
      core := { p.core with responses := p.core.responses.drop 1 }
      delivered := p.delivered ++ p.core.responses.take 1 }
  else p

/-- The command transfer of an edge (R32): the word is accepted and executed completely. -/
def transferCommand (e : Edge) (p : PortState) : Host.Outcome PortState Fault Refusal :=
  if e.takesCommand then
    match acceptWord e.cmdData p.core with
    | .next c => .next { p with core := c, accepted := p.accepted ++ [e.cmdData] }
    | .fault r => .fault r
    | .refused r => .refused r
  else .next p

/-- One rising edge: a reset drops the state and every pending word (R165, R167); else both transfers. -/
def clockEdge (e : Edge) (p : PortState) : Host.Outcome PortState Fault Refusal :=
  if e.rst then .next PortState.reset else transferCommand e (transferResponse e p)

end Sys2Proof.Machine
end

