-- ==== Sys2Proof/Machine/Readings.lean ====
section
/-! DEFINITION. What a host may read from the response words: a verdict (10_state.md R23, 42_verifier.md R103,
70_reset_and_hazards.md R175) and a complete codeword (41_encoder.md R96, 70_reset_and_hazards.md R174). No step of the core
calls them. -/

namespace Sys2Proof.Machine

/-- What `isValid` certifies (R103): no *detectable* error, or an error. There is no verdict "correct": "an all-zero
remainder is a necessary but not sufficient condition for 'no error actually occurred'". -/
inductive Verdict where
  /-- `ZERO = 1`: "no *detectable* error occurred". -/
  | noDetectableError
  /-- `ZERO = 0`: the sequence is no codeword. -/
  | errorDetected
  deriving DecidableEq, Repr

/-- The verdict a response word carries: `ZERO` of a `DONE` word with `MODE = VER`. In `DIV` and `ENC` operations `ZERO` "must
not be read as a verdict" (R175), and no other word carries one (R173). -/
def verdictOf? (rsp : Word) : Option Verdict :=
  if rspKind rsp = kindDone ∧ rspMode rsp = Mode.ver.bits then
    some (if rspZero rsp then .noDetectableError else .errorDetected)
  else none

/-- The codeword that the responses since an `ENC` command deliver: the `SYM` values of their `CWSYM` words, complete "only
when the `DONE` word with `MODE = 2` arrives" (R174); without it the `CWSYM` words are discarded (R96). -/
def deliveredCodeword? (rsps : List Word) : Option BitSequence :=
  match (withoutStatus rsps).getLast? with
  | none => none
  | some rsp =>
    if rspKind rsp = kindDone ∧ rspMode rsp = Mode.enc.bits then some (cwsymSymbols rsps) else none

end Sys2Proof.Machine
end

