-- ==== Sys2Proof/Safety.lean ====
section
/-! DEFINITION. What claims say of a state and of a run: the idle state, a legal configuration, the invariant of
10_state.md R28, and a run over command words. -/

namespace Sys2Proof.Machine

/-- All six fields of R13 are zero: the idle state `S0`, whatever the channels hold (R22). -/
abbrev State.isS0 (s : State) : Prop :=
  s.phase = .idle ∧ s.mode = .none ∧ s.width = 0#6 ∧ s.poly = 0#33 ∧ s.reg = 0#34 ∧ s.cnt = 0#6

/-- A legal configuration: `1 <= W <= 32`, `P[W] = 1`, `P[32:W+1] = 0` (R144, R28 item 2). -/
abbrev LegalConfig (width : Nat) (poly : Poly) : Prop :=
  1 ≤ width ∧ width ≤ 32 ∧ poly.getLsbD width = true ∧ poly >>> (width + 1) = 0#33

/-- The invariant of the control state (R28 items 1 and 2). -/
abbrev State.Inv (s : State) : Prop :=
  (s.phase = .idle ↔ s.isS0) ∧
  (s.phase = .run →
    s.mode ≠ .none ∧ LegalConfig s.width.toNat s.poly ∧ s.reg.toNat < 2 ^ s.width.toNat ∧ s.cnt.toNat ≤ 32)

/-- R28 item 3: in `RUN`, `REG` is the integer of `divide` of the symbols accepted so far, and `CNT` counts them. -/
def State.Tracks (s : State) (bits : List Bool) : Prop :=
  s.phase = .run →
    divide (bits.map symOf) s.poly s.width.toNat = .ok (remstr s.reg s.width.toNat) ∧ s.cnt.toNat = min bits.length 32

/-- The symbols accepted in the open operation once the next word is executed, `bits` being those before it: none where no
operation was open, one more after a `PUSH` of a binary symbol (the words of R64). -/
def bitsAfter (s : State) (bits : List Bool) : List Bool :=
  match s.phase, s.commands with
  | .run, cmd :: _ =>
    if cmd = 0x400000000030#48 then bits ++ [false] else if cmd = 0x400000000031#48 then bits ++ [true] else bits
  | .run, [] => bits
  | .idle, _ => []

/-- Every word on the response channel has one of the four kinds (R52). -/
abbrev State.ResponsesLegal (s : State) : Prop :=
  ∀ r ∈ s.responses,
    rspKind r = kindStatus ∨ rspKind r = kindCwsym ∨ rspKind r = kindDone ∨ rspKind r = kindErr

/-- `k` steps, one after the other, as Host.Core.run takes them for this core. -/
def runSteps : Nat → State → Result
  | 0, s => .next s
  | k + 1, s =>
    match step s with
    | .next t => runSteps k t
    | .fault r => .fault r
    | .refused r => .refused r

/-- The run that accepts every word of a list, in order, from a state (R38, R170). -/
def runWords (words : List Word) (s : State) : Result :=
  runSteps words.length { s with commands := words }

/-- The conditions of 60_exceptions.md R142 on a word and a state, each with its cause, in the order in which R146 checks
them. -/
def causeConditions (cmd : Word) (s : State) : List (Cause × Bool) :=
  let op := (opField cmd).toNat
  let isStart := 1 ≤ op ∧ op ≤ 3
  let width := (widthField cmd).toNat
  [ (.reservedOpcode, decide (8 ≤ op))
  , (.reservedField, decide ((isStart ∧ cmd.extractLsb' 39 5 ≠ 0#5) ∨ (op = 4 ∧ cmd.extractLsb' 8 36 ≠ 0#36) ∨
      ((op = 0 ∨ 5 ≤ op) ∧ cmd.extractLsb' 0 44 ≠ 0#44)))
  , (.notIdle, decide (isStart ∧ s.phase = .run))
  , (.notRunning, decide ((op = 4 ∨ op = 5) ∧ s.phase = .idle))
  , (.widthZero, decide (isStart ∧ width = 0))
  , (.widthTooLarge, decide (isStart ∧ 32 < width))
  , (.polyMalformed, decide isStart &&
      (!(polyField cmd).getLsbD width || (List.range 33).any fun k => decide (width < k) && (polyField cmd).getLsbD k))
  , (.nonbinarySymbol, decide (op = 4 ∧ symField cmd ≠ 0x30#8 ∧ symField cmd ≠ 0x31#8))
  , (.emptyData, decide (op = 5 ∧ s.mode = .enc ∧ s.cnt = 0#6))
  , (.shortCodeword, decide (op = 5 ∧ s.mode = .ver ∧ s.cnt.toNat < s.width.toNat)) ]

/-- The first cause that applies (R146: "A command raises at most one error, the first that applies"). -/
def firstCause (cmd : Word) (s : State) : Option Cause :=
  ((causeConditions cmd s).find? fun c => c.2).map fun c => c.1

/-- The core behind its ports agrees with a run of the step function (R33, R34, R39): the words delivered, then the words
pending, are the response trace of the words accepted. -/
def PortState.Agrees (p : PortState) : Prop :=
  p.core.commands = [] ∧
  runWords p.accepted State.reset = .next { p.core with responses := p.delivered ++ p.core.responses }

end Sys2Proof.Machine
end

