-- ==== Sys2Proof/Certificates/Slice0/Obligations.lean ====
section
/-! DEFINITION. The statements for the provers, in the order of the spec's files. Each docstring names the rule it
formalises. Where a rule is marked `[derived: ...]` by the spec, the statement is one of basis "derived". -/

open Sys2Proof Sys2Proof.Machine

/-! ### State and reset (10_state.md, 70_reset_and_hazards.md) -/

/-- R26: after reset every field of R13 is zero and the response channel is empty. -/
def Obligations.ResetIsIdleAndSilent : Prop :=
  State.reset.isS0 ∧ State.reset.responses = []

/-- R28 items 1 and 2 and R52 hold after reset. That no command word is presented yet is the model's form of R166 (log
entry 2). -/
def Obligations.ResetMeetsTheInvariant : Prop :=
  State.reset.Inv ∧ State.reset.ResponsesLegal ∧ State.reset.commands = []

/-- R28 items 1 and 2 (derived there by induction): every step keeps the invariant, from every state that meets it. -/
def Obligations.StepKeepsTheControlInvariant : Prop :=
  ∀ s t : State, s.Inv → step s = .next t → t.Inv

/-- R52: "the core never emits any other value of `KIND`". No premise on the control state. -/
def Obligations.StepKeepsResponseKinds : Prop :=
  ∀ s t : State, s.ResponsesLegal → step s = .next t → t.ResponsesLegal

/-- R149 (derived there): every word in every state that meets the invariant has an outcome, and one `ABORT` brings the
core back to `S0`. -/
def Obligations.EveryWordCompletesAndAbortRecovers : Prop :=
  ∀ s : State, s.Inv →
    (∃ t, step s = .next t) ∧ ∀ rest, s.commands = 0x600000000000#48 :: rest →
      ∃ t, step s = .next t ∧ t.isS0 ∧ t.commands = rest ∧ t.responses = s.responses

/-- R27 (derived there): which fields each command may change, when it gives a next state; a command that raises sets
every field to zero. No command touches the words still to be accepted, and responses are only appended (R33). -/
def Obligations.CommandsChangeOnlyTheirFields : Prop :=
  ∀ (i : Instr) (s t : State), exec i s = .next t →
    t.commands = s.commands ∧ (∃ new, t.responses = s.responses ++ new) ∧
    match i with
    | .nop => t = s
    | .stat => t = { s with responses := t.responses }
    | .abort => t.isS0 ∧ t.responses = s.responses
    | .endOp => t.isS0
    | .push _ => t.isS0 ∨ (t.phase = s.phase ∧ t.mode = s.mode ∧ t.width = s.width ∧ t.poly = s.poly)
    | .div w p => t.isS0 ∨ (t.phase = .run ∧ t.mode = .div ∧ t.width = w ∧ t.poly = p ∧ t.reg = 0#34 ∧ t.cnt = 0#6)
    | .enc w p => t.isS0 ∨ (t.phase = .run ∧ t.mode = .enc ∧ t.width = w ∧ t.poly = p ∧ t.reg = 0#34 ∧ t.cnt = 0#6)
    | .ver w p => t.isS0 ∨ (t.phase = .run ∧ t.mode = .ver ∧ t.width = w ∧ t.poly = p ∧ t.reg = 0#34 ∧ t.cnt = 0#6)

/-- R29: "the responses of an operation are a function of the command words of that operation alone". From any two idle
states, whatever came before, the same words give the same new responses and the same six fields. -/
def Obligations.NothingSurvivesAnOperation : Prop :=
  ∀ (words : List Word) (s s' : State), s.isS0 → s'.isS0 →
    ∃ (t t' : State) (new : List Word), runWords words s = .next t ∧ runWords words s' = .next t' ∧
      t.responses = s.responses ++ new ∧ t'.responses = s'.responses ++ new ∧
      t' = { t with responses := t'.responses }

/-- R17: the encoding of `MODE` "equals the low two bits of the opcode of the command that opened the operation". -/
def Obligations.ModeIsTheLowOpcodeBits : Prop :=
  ∀ (kind : StartKind) (w : Width) (p : Poly) (s t : State),
    exec (startInstr kind w p) s = .next t → t.phase = .run →
      t.mode.bits = (encode (startInstr kind w p)).extractLsb' 44 2

/-! ### Encoding (30_encoding.md) -/

/-- A step accepts the next command word and executes the command it decodes to, on the state without that word (R32,
R38); with no word presented it changes nothing (R32; a step without a word is the model's, log entry 1). -/
def Obligations.StepExecutesTheDecodedCommand : Prop :=
  (∀ (s : State) (cmd : Word) (rest : List Word) (i : Instr), s.commands = cmd :: rest → decode cmd = .ok i →
    step s = exec i { s with commands := rest }) ∧
  ∀ s : State, s.commands = [] → step s = .next s

/-- Words written out from R62 and R64 decode to the commands they stand for. -/
def Obligations.WrittenWordsDecode : Prop :=
  decode 0x000000000000#48 = .ok .nop ∧
  decode 0x100800000013#48 = .ok (.div 4#6 0x13#33) ∧
  decode 0x204104C11DB7#48 = .ok (.enc 32#6 0x104C11DB7#33) ∧
  decode 0x301000000107#48 = .ok (.ver 8#6 0x107#33) ∧
  decode 0x400000000031#48 = .ok (.push 0x31#8) ∧
  decode 0x500000000000#48 = .ok .endOp ∧
  decode 0x600000000000#48 = .ok .abort ∧
  decode 0x700000000000#48 = .ok .stat ∧
  decode 0x000000000001#48 = .error .reservedField ∧
  decode 0xD8400000000D#48 = .error .reservedOpcode

/-- Decoding the word of a command gives it back, with every operand at every value (R46 to R49, R60, R62). -/
def Obligations.DecodeInvertsEncode : Prop :=
  ∀ i : Instr, i.wellFormed = true → decode (encode i) = .ok i

/-- Every word that decodes is the word of the command it decodes to: no bit is dropped (R45, R60). -/
def Obligations.EncodeInvertsDecode : Prop :=
  ∀ (cmd : Word) (i : Instr), decode cmd = .ok i → encode i = cmd

/-- R65: a word is a row's command if and only if `cmd & mask = match`, and it matches no row if and only if it raises. -/
def Obligations.DecodeAgreesWithTheOpcodeTable : Prop :=
  ∀ cmd : Word,
    (∀ row ∈ opcodeTable, (∃ i, decode cmd = .ok i ∧ i.mnemonic = row.mnemonic) ↔ cmd &&& row.mask = row.pattern) ∧
    ((∀ row ∈ opcodeTable, cmd &&& row.mask ≠ row.pattern) ↔ ∃ e, decode cmd = .error e)

/-- R58: a reserved opcode raises `RESERVED_OPCODE` "whatever its other bits", a named opcode with a non-zero reserved field
raises `RESERVED_FIELD`, in both phases, and the core returns to `S0`. -/
def Obligations.ReservedEncodingsRaise : Prop :=
  ∀ (s : State) (cmd : Word) (rest : List Word), s.commands = cmd :: rest →
    let raised (cause : BitVec 8) : State :=
      { phase := .idle, mode := .none, width := 0#6, poly := 0#33, reg := 0#34, cnt := 0#6, commands := rest,
        responses := s.responses ++ [0xE#4 ++ s.mode.bits ++ 0#22 ++ 0#8 ++ cmd.extractLsb' 44 4 ++ cause] }
    let op := (cmd.extractLsb' 44 4).toNat
    (8 ≤ op → step s = .next (raised 0x31#8)) ∧
    (op ∈ [1, 2, 3] → cmd.extractLsb' 39 5 ≠ 0#5 → step s = .next (raised 0x32#8)) ∧
    (op = 4 → cmd.extractLsb' 8 36 ≠ 0#36 → step s = .next (raised 0x32#8)) ∧
    (op ∈ [0, 5, 6, 7] → cmd.extractLsb' 0 44 ≠ 0#44 → step s = .next (raised 0x32#8))

/-- R54, R55, R56: every field of the words `DONE`, `ERR` and `CWSYM` stands where the formats put it, and every other bit
is zero. -/
def Obligations.ResponseFieldsStandInPlace : Prop :=
  (∀ (m : Mode) (w : Width) (rem : Rem),
    let r := doneWord m w rem
    r.extractLsb' 44 4 = 0xD#4 ∧ r.extractLsb' 42 2 = m.bits ∧ r.extractLsb' 36 6 = w ∧ r.extractLsb' 33 3 = 0#3 ∧
      (r.getLsbD 32 = true ↔ rem = 0#32) ∧ r.extractLsb' 0 32 = rem) ∧
  (∀ (m : Mode) (sym : Symbol) (op : Opcode) (c : Cause),
    let r := errWord m sym op c
    r.extractLsb' 44 4 = 0xE#4 ∧ r.extractLsb' 42 2 = m.bits ∧ r.extractLsb' 20 22 = 0#22 ∧ r.extractLsb' 12 8 = sym ∧
      r.extractLsb' 8 4 = op ∧ r.extractLsb' 4 4 = c.errorClass.code ∧ r.extractLsb' 0 4 = c.sub) ∧
  ∀ sym : Symbol,
    let r := cwsymWord sym
    r.extractLsb' 44 4 = 0xC#4 ∧ r.extractLsb' 8 36 = 0#36 ∧ r.extractLsb' 0 8 = sym

/-- R142: the ten values of the cause byte, all different. -/
def Obligations.CauseBytesAreTheTable : Prop :=
  ([.nonbinarySymbol, .emptyData, .shortCodeword, .widthZero, .widthTooLarge, .polyMalformed, .reservedOpcode,
    .reservedField, .notIdle, .notRunning] : List Cause).map Cause.byte =
    [0x11#8, 0x12#8, 0x13#8, 0x21#8, 0x22#8, 0x23#8, 0x31#8, 0x32#8, 0x41#8, 0x42#8] ∧
  ∀ c d : Cause, c.byte = d.byte → c = d

/-- R37: `remstr` has exactly `W` characters, character `k` is '1' exactly when bit `W-1-k` is set, and it is faithful. -/
def Obligations.RemainderStringsAreFaithful : Prop :=
  ∀ (v v' : Reg) (w : Nat),
    (remstr v w).length = w ∧
    (∀ k < w, (remstr v w)[k]? = some (if v.getLsbD (w - 1 - k) then 0x31#8 else 0x30#8)) ∧
    (v.toNat < 2 ^ w → v'.toNat < 2 ^ w → remstr v w = remstr v' w → v = v')

/-- R62: "The assembler refuses a `w` above 63, a `poly` above `2^33 - 1` and a `sym` above 255", and nothing else of a
start line or a `PUSH`; the words of the forms of R62 and R63, field by field, and of the registry lines, as R64 gives them.
The refusals of `PUSHS`, `PUSHB` and `.word` are the model's (log entry 10). -/
def Obligations.AssemblerWordsAndLimits : Prop :=
  let op (kind : StartKind) : BitVec 4 := match kind with
    | .div => 0x1#4
    | .enc => 0x2#4
    | .ver => 0x3#4
  let pushWord (sym : Nat) : Word := 0x4#4 ++ 0#36 ++ BitVec.ofNat 8 sym
  (∀ (kind : StartKind) (w poly : Nat),
    (assemble (.start kind w poly) = none ↔ 63 < w ∨ 2 ^ 33 - 1 < poly) ∧
    (w ≤ 63 → poly ≤ 2 ^ 33 - 1 →
      assemble (.start kind w poly) = some [op kind ++ 0#5 ++ BitVec.ofNat 6 w ++ BitVec.ofNat 33 poly])) ∧
  (∀ sym : Nat, assemble (.push sym) = if 255 < sym then none else some [pushWord sym]) ∧
  (∀ codes : List Nat, assemble (.pushS codes) = if ∃ c ∈ codes, 255 < c then none else some (codes.map pushWord)) ∧
  (∀ b : Nat, assemble (.pushB b) = if 1 < b then none else some [pushWord (0x30 + b)]) ∧
  (∀ v : Nat, assemble (.word v) = if 2 ^ 48 ≤ v then none else some [BitVec.ofNat 48 v]) ∧
  [AsmLine.nop, .endOp, .abort, .stat].map assemble =
    [some [0x000000000000#48], some [0x500000000000#48], some [0x600000000000#48], some [0x700000000000#48]] ∧
  [RegistryName.crc4, .crc5Itu, .crc7, .crc8].map (fun name => assemble (.startNamed .div name)) =
    [some [0x100800000013#48], some [0x100A00000025#48], some [0x100E00000089#48], some [0x101000000107#48]] ∧
  [RegistryName.crc4, .crc5Itu, .crc7, .crc8].map (fun name => assemble (.startNamed .enc name)) =
    [some [0x200800000013#48], some [0x200A00000025#48], some [0x200E00000089#48], some [0x201000000107#48]] ∧
  [RegistryName.crc4, .crc5Itu, .crc7, .crc8].map (fun name => assemble (.startNamed .ver name)) =
    [some [0x300800000013#48], some [0x300A00000025#48], some [0x300E00000089#48], some [0x301000000107#48]] ∧
  ∀ (line : AsmLine) (words : List Word), assemble line = some words → (∀ v, line ≠ .word v) →
    words.map decode = (lineInstrs line).map fun i => .ok i

/-! ### The division engine (40_division_engine.md) -/

/-- R70 on numbers: `t = 2r + b` inside 34 bits; if bit `W` of `t` is set the result is `t xor P`, else `t`. R70 is for `W` in
1..32; that the formula runs at every other width too is the model's (log entry 17). -/
def Obligations.LfsrStepOnNumbers : Prop :=
  ∀ (r : Reg) (b : Bool) (w : Nat) (p : Poly),
    let t := (2 * r.toNat + b.toNat) % 2 ^ 34
    (lfsrStep r b w p).toNat = if t.testBit w then t ^^^ p.toNat else t

/-- R73 (derived there): under a legal configuration the register stays below `2^W`, and the shifted value of R70 below
`2^(W+1)`. -/
def Obligations.RegisterNeverOverflows : Prop :=
  ∀ (r : Reg) (b : Bool) (w : Nat) (p : Poly), LegalConfig w p → r.toNat < 2 ^ w →
    2 * r.toNat + b.toNat < 2 ^ (w + 1) ∧ (lfsrStep r b w p).toNat < 2 ^ w

/-- R74 item 3 (derived there): the low `W` bits of the register do not depend on `P[W]` or on any higher bit of `P`. -/
def Obligations.LowBitsIgnoreHighPolynomialBits : Prop :=
  ∀ (bits : List Bool) (w : Nat) (p q : Poly), w ≤ 32 → (∀ k < w, p.getLsbD k = q.getLsbD k) →
    ∀ k < w, (divideBits bits p w).getLsbD k = (divideBits bits q w).getLsbD k

/-- R74: `divide` is the remainder of `M(x)` divided by `G(x)` with coefficients modulo 2, where
`M(x) = c[0] x^(n-1) + ... + c[n-1]` and bit `i` of `P` is the coefficient of `x^i` of `G`. -/
def Obligations.DivideIsPolynomialRemainder : Prop :=
  ∀ (bits : List Bool) (w : Nat) (p : Poly), LegalConfig w p →
    (∑ i ∈ Finset.range w, if (divideBits bits p w).getLsbD i then (Polynomial.X : Polynomial (ZMod 2)) ^ i else 0) =
      (∑ k ∈ Finset.range bits.length, if bits.getD k false then Polynomial.X ^ (bits.length - 1 - k) else 0) %ₘ
        (∑ i ∈ Finset.range (w + 1), if p.getLsbD i then Polynomial.X ^ i else 0)

/-- R74 items 1 and 2 (derived there): `divide(a xor b) = divide(a) xor divide(b)` for sequences of one length, and a
leading '0' does not matter. -/
def Obligations.DivideIsLinear : Prop :=
  ∀ (a b ra rb : BitSequence) (w : Nat) (p : Poly), a.length = b.length →
    divide a p w = .ok ra → divide b p w = .ok rb →
      divide (xorSequence a b) p w = .ok (xorSequence ra rb) ∧ divide (0x30#8 :: a) p w = .ok ra

/-- R80 (derived there): with `W = 1`, `P = 0b11` the remainder is the parity of the sequence; with `P = 2^W` it is the last
`W` symbols, zero-padded at the left. -/
def Obligations.ParityAndLastSymbolCodes : Prop :=
  (∀ (bits : BitSequence) (bs : List Bool), bitsOf? bits = some bs →
    divide bits 0b11#33 1 = .ok [if bs.count true % 2 = 1 then 0x31#8 else 0x30#8]) ∧
  ∀ (bits : BitSequence) (bs : List Bool) (w : Nat), bitsOf? bits = some bs → 1 ≤ w → w ≤ 32 →
    divide bits (BitVec.twoPow 33 w) w =
      .ok (List.replicate (w - bits.length) 0x30#8 ++ bits.drop (bits.length - w))

/-- The start commands open an operation (R75, R91, R101): in `IDLE`, under a legal configuration, each answers the state
with the operation open, `REG = 0`, `CNT = 0`, and no response. -/
def Obligations.StartCommandsOpenTheOperation : Prop :=
  ∀ (w : Width) (p : Poly) (s : State), s.phase = .idle → LegalConfig w.toNat p →
    exec (.div w p) s = .next { s with phase := .run, mode := .div, width := w, poly := p, reg := 0#34, cnt := 0#6 } ∧
    exec (.enc w p) s = .next { s with phase := .run, mode := .enc, width := w, poly := p, reg := 0#34, cnt := 0#6 } ∧
    exec (.ver w p) s = .next { s with phase := .run, mode := .ver, width := w, poly := p, reg := 0#34, cnt := 0#6 }

/-- R144: in `IDLE` a start command raises at the first configuration check that fails, in the order width zero, width too
large, polynomial malformed (for `W = 32` "the slice `POLY[32:33]` is empty and counts as zero"); otherwise the operands are latched. -/
def Obligations.ConfigurationCheckInOrder : Prop :=
  ∀ (kind : StartKind) (w : Width) (p : Poly) (s : State), s.isS0 →
    let i := startInstr kind w p
    let raised (cause : BitVec 8) : State :=
      { s with responses := s.responses ++ [0xE#4 ++ 0#2 ++ 0#22 ++ 0#8 ++ i.opcode ++ cause] }
    let malformed := p.getLsbD w.toNat = false ∨ ∃ k, w.toNat < k ∧ k < 33 ∧ p.getLsbD k = true
    (w = 0#6 → exec i s = .next (raised 0x21#8)) ∧
    (32 < w.toNat → exec i s = .next (raised 0x22#8)) ∧
    (1 ≤ w.toNat → w.toNat ≤ 32 → malformed → exec i s = .next (raised 0x23#8)) ∧
    (1 ≤ w.toNat → w.toNat ≤ 32 → ¬ malformed →
      exec i s = .next { s with phase := .run, mode := startMode kind, width := w, poly := p })

/-- `PUSH` of a binary symbol completes in `RUN` (R76): `REG` is the step of R70, `CNT <- min(CNT + 1, 32)`, and in `ENC`
mode, and in no other, the symbol is echoed as one `CWSYM` word (R93). -/
def Obligations.PushAcceptsABinarySymbol : Prop :=
  ∀ (sym : Symbol) (b : Bool) (s : State), s.phase = .run → sym = (if b then 0x31#8 else 0x30#8) →
    exec (.push sym) s = .next { s with
      reg := lfsrStep s.reg b s.width.toNat s.poly
      cnt := BitVec.ofNat 6 (min (s.cnt.toNat + 1) 32)
      responses := if s.mode = .enc then s.responses ++ [0xC#4 ++ 0#36 ++ sym] else s.responses }

/-- `END` completes in each mode whose length check passes (R78, R94, R102): `DONE` with the remainder, after `WIDTH`
`CWSYM` words in `ENC` mode, and the state becomes `S0`. -/
def Obligations.EndReportsTheRemainder : Prop :=
  ∀ s : State, s.Inv → s.phase = .run →
    let done (rem : Rem) (before : List Word) : State :=
      { phase := .idle, mode := .none, width := 0#6, poly := 0#33, reg := 0#34, cnt := 0#6, commands := s.commands,
        responses := s.responses ++ before ++
          [0xD#4 ++ s.mode.bits ++ s.width ++ 0#3 ++ (if rem = 0#32 then 1#1 else 0#1) ++ rem] }
    (s.mode = .div → exec .endOp s = .next (done (BitVec.ofNat 32 s.reg.toNat) [])) ∧
    (s.mode = .ver → s.width.toNat ≤ s.cnt.toNat → exec .endOp s = .next (done (BitVec.ofNat 32 s.reg.toNat) [])) ∧
    (s.mode = .enc → s.cnt ≠ 0#6 →
      let rem := BitVec.ofNat 32 (Nat.iterate (fun r => lfsrStep r false s.width.toNat s.poly) s.width.toNat s.reg).toNat
      exec .endOp s = .next (done rem ((List.range s.width.toNat).map fun k =>
        0xC#4 ++ 0#36 ++ (if rem.getLsbD (s.width.toNat - 1 - k) then 0x31#8 else 0x30#8))))

/-- R79 (derived there): after a start command and `PUSH`, `NOP` and `STAT` commands whose symbols spell `s`, `REG` is the
integer of `divide(s, P, W)`, `REG[33:W] = 0` and `CNT = min(n, 32)`; this is R28 item 3. -/
def Obligations.CommandsComputeDivide : Prop :=
  ∀ (kind : StartKind) (w : Width) (p : Poly) (body : List Instr) (bs : List Bool) (s : State),
    s.isS0 → LegalConfig w.toNat p → (∀ i ∈ body, i.isBody = true) → bitsOf? (symbolsOf body) = some bs →
    ∃ t, runWords (encode (startInstr kind w p) :: body.map encode) s = .next t ∧
      t.phase = .run ∧ t.mode = startMode kind ∧ t.width = w ∧ t.poly = p ∧ t.commands = [] ∧
      divide (symbolsOf body) p w.toNat = .ok (remstr t.reg w.toNat) ∧
      t.reg.toNat < 2 ^ w.toNat ∧ t.cnt.toNat = min (symbolsOf body).length 32

/-- R28 item 3 (derived there), as one step from every state that meets the invariant: if `REG` is the integer of `divide` of
the symbols accepted so far and `CNT` counts them, then after the step they are so of the symbols accepted then. A `PUSH`
carries `divide(s)` to `divide` of `s` with its symbol; a start command to `divide` of the empty sequence. -/
def Obligations.StepExtendsTheDivision : Prop :=
  ∀ (s t : State) (bits : List Bool), s.Inv → s.Tracks bits → step s = .next t → t.Tracks (bitsAfter s bits)

/-- R79 (derived there): a whole `DIV` operation emits, `STATUS` words apart, one `DONE` word whose remainder is
`divide(s, P, W)`; over no symbols too (R77). -/
def Obligations.DivOperationComputesDivide : Prop :=
  ∀ (w : Width) (p : Poly) (body : List Instr) (bs : List Bool) (s : State),
    s.isS0 → LegalConfig w.toNat p → (∀ i ∈ body, i.isBody = true) → bitsOf? (symbolsOf body) = some bs →
    ∃ (t : State) (new : List Word) (rem : Rem), runWords (operationWords .div w p body) s = .next t ∧ t.isS0 ∧
      t.responses = s.responses ++ new ∧ withoutStatus new = [doneWord .div w rem] ∧ rem.toNat < 2 ^ w.toNat ∧
      divide (symbolsOf body) p w.toNat = .ok (remstr rem w.toNat)

/-! ### The encoder (41_encoder.md) -/

/-- R92: the codeword is the data, unchanged at the front, followed by a CRC field of exactly `W` characters. -/
def Obligations.CodewordIsSystematic : Prop :=
  ∀ (data : BitSequence) (p : Poly) (w : Nat) (r : EncodeResult), encodeData data p w = .ok r →
    r.codeword.length = data.length + w ∧ r.codeword = data ++ r.crc ∧ r.crc.length = w ∧
      divide (data ++ List.replicate w 0x30#8) p w = .ok r.crc

/-- R97 (derived there): an `ENC` operation over non-empty binary data emits, `STATUS` words apart, the codeword of
`encode` as `CWSYM` words and one `DONE` whose remainder is the CRC. -/
def Obligations.EncOperationComputesEncode : Prop :=
  ∀ (w : Width) (p : Poly) (body : List Instr) (r : EncodeResult) (s : State),
    s.isS0 → LegalConfig w.toNat p → (∀ i ∈ body, i.isBody = true) →
    encodeData (symbolsOf body) p w.toNat = .ok r →
    ∃ (t : State) (new : List Word) (rem : Rem), runWords (operationWords .enc w p body) s = .next t ∧ t.isS0 ∧
      t.responses = s.responses ++ new ∧ withoutStatus new = r.codeword.map cwsymWord ++ [doneWord .enc w rem] ∧
      rem.toNat < 2 ^ w.toNat ∧ remstr rem w.toNat = r.crc

/-- R95: "`verify(encode(d, config).codeword, config).isValid == true`" for every legal `W`, every `P` with `P[W] = 1` (bits
above `W` included) and all non-empty binary data: the round-trip property. -/
def Obligations.RoundTripIsValid : Prop :=
  ∀ (data : BitSequence) (p : Poly) (w : Nat), 1 ≤ w → w ≤ 32 → p.getLsbD w = true → data ≠ [] →
    (bitsOf? data).isSome = true → ∃ r, encodeData data p w = .ok r ∧ verify r.codeword p w = .ok ⟨zeros w, true⟩

/-- R95 on the core: if the `SYM` values of the `CWSYM` words of a successful `ENC` operation are pushed, in order, into a
`VER` or `DIV` operation of the same configuration, that operation emits `DONE` with `ZERO = 1` and `REM = 0` alone. -/
def Obligations.EncodedSymbolsVerifyOnTheCore : Prop :=
  ∀ (w : Width) (p : Poly) (body : List Instr) (kind : StartKind) (s t : State) (new : List Word),
    s.isS0 → LegalConfig w.toNat p → (∀ i ∈ body, i.isBody = true) → kind ≠ .enc →
    runWords (operationWords .enc w p body) s = .next t → t.responses = s.responses ++ new →
    (∃ r ∈ new, rspKind r = kindDone) →
    ∃ u, runWords (operationWords kind w p ((cwsymSymbols new).map Instr.push)) t = .next u ∧ u.isS0 ∧
      u.responses = t.responses ++ [doneWord (startMode kind) w 0#32]

/-- R96: an `ENC` operation in which a `PUSH` carries a non-binary symbol, or which has no symbol, "delivers no `DONE`", and
emits an `ERR` with cause `NONBINARY_SYMBOL` or `EMPTY_DATA`. -/
def Obligations.FailedEncodingDeliversNoResult : Prop :=
  ∀ (w : Width) (p : Poly) (body : List Instr) (s : State),
    s.isS0 → LegalConfig w.toNat p → (∀ i ∈ body, i.isBody = true) →
    encodeData (symbolsOf body) p w.toNat = .error .invalidInput →
    ∃ (t : State) (new : List Word), runWords (operationWords .enc w p body) s = .next t ∧ t.isS0 ∧
      t.responses = s.responses ++ new ∧ (∀ r ∈ new, rspKind r ≠ kindDone) ∧
      ∃ r ∈ new, rspKind r = kindErr ∧ (rspCause r = 0x11#8 ∨ rspCause r = 0x12#8)

/-! ### The verifier (42_verifier.md) -/

/-- R106 (derived there): a `VER` operation over at least `W` binary symbols emits, `STATUS` words apart, one `DONE` with the
remainder of `verify` and `ZERO = 1` if and only if `isValid`; over fewer, one `ERR` `SHORT_CODEWORD`. -/
def Obligations.VerOperationComputesVerify : Prop :=
  ∀ (w : Width) (p : Poly) (body : List Instr) (bs : List Bool) (s : State),
    s.isS0 → LegalConfig w.toNat p → (∀ i ∈ body, i.isBody = true) → bitsOf? (symbolsOf body) = some bs →
    ∃ (t : State) (new : List Word), runWords (operationWords .ver w p body) s = .next t ∧ t.isS0 ∧
      t.responses = s.responses ++ new ∧
      ((symbolsOf body).length < w.toNat → withoutStatus new = [errWord .ver 0#8 0x5#4 .shortCodeword]) ∧
      (w.toNat ≤ (symbolsOf body).length → ∃ (rem : Rem) (v : VerifyResult),
        verify (symbolsOf body) p w.toNat = .ok v ∧ withoutStatus new = [doneWord .ver w rem] ∧
        remstr rem w.toNat = v.remainder ∧ rem.toNat < 2 ^ w.toNat ∧
        (rspZero (doneWord .ver w rem) = true ↔ v.isValid = true))

/-- R104: a sequence of exactly `W` symbols is verified, its remainder is the sequence itself and it is valid only if all
its symbols are '0'; a shorter one fails; and `encode` never produces a codeword of that length. -/
def Obligations.VerifyLengthBoundary : Prop :=
  ∀ (bits : BitSequence) (bs : List Bool) (p : Poly) (w : Nat), LegalConfig w p → bitsOf? bits = some bs →
    (bits.length = w → verify bits p w = .ok ⟨bits, decide (∀ sym ∈ bits, sym = 0x30#8)⟩) ∧
    (bits.length < w → verify bits p w = .error .invalidInput) ∧
    ∀ (data : BitSequence) (r : EncodeResult), encodeData data p w = .ok r → r.codeword.length ≠ w

/-- R105: a single-bit error in a valid codeword is detected by every generator with two or more non-zero terms. -/
def Obligations.SingleBitErrorsAreDetected : Prop :=
  ∀ (c : BitSequence) (p : Poly) (w k : Nat), LegalConfig w p → (∃ j < w, p.getLsbD j = true) →
    verify c p w = .ok ⟨zeros w, true⟩ → k < c.length →
      ∃ rem, verify (injectErrors c [k]) p w = .ok ⟨rem, false⟩

/-- R108: if `c` is valid and `e`, of the same length, is a multiple of the generator, then `c xor e` is valid; and applying
such an `e` to any sequence leaves its remainder unchanged. -/
def Obligations.MultiplesOfTheGeneratorPassUndetected : Prop :=
  ∀ (c e : BitSequence) (p : Poly) (w : Nat), c.length = e.length → divide e p w = .ok (zeros w) →
    (∀ v, verify c p w = .ok v → v.isValid = true → verify (xorSequence c e) p w = .ok v) ∧
    ∀ r, divide c p w = .ok r → divide (xorSequence c e) p w = .ok r

/-! ### Control commands (43_control.md) -/

/-- `NOP`, `ABORT` and `STAT` complete in every state (R110 to R112). -/
def Obligations.ControlCommandsComplete : Prop :=
  ∀ s : State,
    exec .nop s = .next s ∧
    exec .abort s = .next { s with
      phase := .idle, mode := .none, width := 0#6, poly := 0#33, reg := 0#34, cnt := 0#6 } ∧
    exec .stat s = .next { s with
      responses := s.responses ++ [statusWord s.mode s.width s.phase s.cnt] }

/-- R53, R112: `STAT` emits one word with `MODE`, `WIDTH`, `PHASE` and `CNT` as they were before it, every other bit below
`KIND` zero; no field changes; in `IDLE` the word is always `0xA00000000000`; with a non-zero reserved field it raises. -/
def Obligations.StatReportsTheControlState : Prop :=
  ∀ (s : State) (cmd : Word) (rest : List Word), s.commands = cmd :: rest → cmd.extractLsb' 44 4 = 0x7#4 →
    (cmd.extractLsb' 0 44 = 0#44 →
      ∃ r : Word, step s = .next { s with commands := rest, responses := s.responses ++ [r] } ∧
        r.extractLsb' 44 4 = 0xA#4 ∧ r.extractLsb' 42 2 = s.mode.bits ∧ r.extractLsb' 36 6 = s.width ∧
        r.extractLsb' 7 29 = 0#29 ∧ r.extractLsb' 6 1 = s.phase.bits ∧ r.extractLsb' 0 6 = s.cnt ∧
        (s.isS0 → r = 0xA00000000000#48)) ∧
    (cmd.extractLsb' 0 44 ≠ 0#44 → step s = .next
      { phase := .idle, mode := .none, width := 0#6, poly := 0#33, reg := 0#34, cnt := 0#6, commands := rest,
        responses := s.responses ++ [0xE#4 ++ s.mode.bits ++ 0#22 ++ 0#8 ++ 0x7#4 ++ 0x32#8] })

/-- R110, R111: the word `0x000000000000` changes nothing, the word `0x600000000000` sets the state to `S0` without a
response in either phase, and every other word with one of the two opcodes raises `RESERVED_FIELD`. -/
def Obligations.NopAndAbortWords : Prop :=
  ∀ (s : State) (cmd : Word) (rest : List Word), s.commands = cmd :: rest →
    let idleWith (new : List Word) : State :=
      { phase := .idle, mode := .none, width := 0#6, poly := 0#33, reg := 0#34, cnt := 0#6, commands := rest,
        responses := s.responses ++ new }
    (cmd.extractLsb' 44 4 = 0x0#4 → step s = .next
      (if cmd = 0x000000000000#48 then { s with commands := rest }
        else idleWith [0xE#4 ++ s.mode.bits ++ 0#22 ++ 0#8 ++ 0x0#4 ++ 0x32#8])) ∧
    (cmd.extractLsb' 44 4 = 0x6#4 → step s = .next
      (if cmd = 0x600000000000#48 then idleWith []
        else idleWith [0xE#4 ++ s.mode.bits ++ 0#22 ++ 0#8 ++ 0x6#4 ++ 0x32#8]))

/-- R113 (derived there): removing every `NOP` and `STAT` command from a command list, and every `STATUS` word from the
response trace, gives a command list whose response trace is the rest, and the same final state. -/
def Obligations.NopAndStatAreTransparent : Prop :=
  ∀ (cmds : List Instr) (s t : State) (new : List Word),
    runWords (cmds.map encode) s = .next t → t.responses = s.responses ++ new →
    runWords ((cmds.filter fun i => !i.isTransparent).map encode) s =
      .next { t with responses := s.responses ++ withoutStatus new }

/-! ### Companion functions (44_companion_functions.md) -/

/-- R120 ("must be reproducible bit-for-bit"): name, polynomial and width of the four entries, and there is no fifth; R121:
`binaryRepr` is the binary column; R122 (derived there): each passes the configuration check. -/
def Obligations.RegistryIsBitForBit : Prop :=
  let names : List RegistryName := [.crc4, .crc5Itu, .crc7, .crc8]
  names.map registry =
    [ { name := "CRC-4", polynomial := 0x13#33, width := 4#6 }
    , { name := "CRC-5-ITU", polynomial := 0x25#33, width := 5#6 }
    , { name := "CRC-7", polynomial := 0x89#33, width := 7#6 }
    , { name := "CRC-8", polynomial := 0x107#33, width := 8#6 } ] ∧
  (names.map fun name => binaryRepr (registry name).polynomial (registry name).width.toNat) =
    ["10011", "100101", "10001001", "100000111"].map (fun text => text.toList.map fun c => BitVec.ofNat 8 c.toNat) ∧
  ∀ name : RegistryName, name ∈ names ∧ LegalConfig (registry name).width.toNat (registry name).polynomial

/-- R124, R126: the injector is `codeword xor e`, `e` with a '1' exactly at the in-range positions, and the analyzer's
remainder is `divide(codeword) xor divide(e)`. -/
def Obligations.InjectorAddsTheErrorPattern : Prop :=
  ∀ (c rc re : BitSequence) (bs : List Bool) (positions : List Nat) (p : Poly) (w : Nat), bitsOf? c = some bs →
    injectErrors c positions = xorSequence c (errorPattern c.length positions) ∧
    (∀ k < c.length, (errorPattern c.length positions)[k]? = some (if k ∈ positions then 0x31#8 else 0x30#8)) ∧
    (divide c p w = .ok rc → divide (errorPattern c.length positions) p w = .ok re → w ≤ c.length →
      ∃ valid, analyze c positions p w = .ok ⟨xorSequence rc re, valid⟩ ∧ (valid = true ↔ rc = re))

/-- R125: only membership in the set of positions counts; positions at or beyond the length change nothing; the injector is
its own inverse, `injectErrors(injectErrors(c, S), S) = c`. For every binary codeword, the injector's domain (R124). -/
def Obligations.InjectorIsAnInvolution : Prop :=
  ∀ (c : BitSequence) (positions other : List Nat), (bitsOf? c).isSome = true →
    ((∀ k < c.length, k ∈ positions ↔ k ∈ other) → injectErrors c positions = injectErrors c other) ∧
    injectErrors (injectErrors c positions) positions = c

/-- R127: the vector is `remstr(P, W + 1)` followed by `UEV_PAD` zeros, and a width of 0 or above 32 fails with
`InvalidConfig`. R128: it is always undetectable, for every `P` with `P[W] = 1` (bits above `W` included) and every
`UEV_PAD`. -/
def Obligations.GeneratedVectorIsUndetectable : Prop :=
  ∀ (pad w : Nat) (p : Poly),
    (1 ≤ w → w ≤ 32 → p.getLsbD w = true →
      generateUndetectableVector pad p w = .ok
        { vector := ((List.range (w + 1)).map fun k => if p.getLsbD (w - k) then 0x31#8 else 0x30#8) ++
            List.replicate pad 0x30#8
          isUndetectable := true }) ∧
    (w = 0 ∨ 32 < w → generateUndetectableVector pad p w = .error .invalidConfig)

/-- R132: `binaryToHex(hexToBinary(h)) == h.toUpperCase()`, exactly, with `HEX_STRIP_LEADING_ZEROS` false (exactness is
derived there; the character codes of the digits are log entry 9). -/
def Obligations.HexRoundTrip : Prop :=
  ∀ (h : List Char) (bits : BitSequence), hexToBinary h = .ok bits → binaryToHex false bits = .ok (h.map upperHex)

/-! ### Errors and the phase machine (60_exceptions.md) -/

/-- R146, R147: a word raises the first cause that applies, in the order decode, sequence, configuration, input: one `ERR`
with `MODE` before the command, `SYM` for `NONBINARY_SYMBOL` alone, the opcode and the cause, and the state becomes `S0`. If
none applies the word executes and emits no `ERR`. -/
def Obligations.FirstApplicableCauseIsRaised : Prop :=
  ∀ (s : State) (cmd : Word) (rest : List Word), s.Inv → s.commands = cmd :: rest →
    match firstCause cmd s with
    | some cause => step s = .next
        { phase := .idle, mode := .none, width := 0#6, poly := 0#33, reg := 0#34, cnt := 0#6, commands := rest,
          responses := s.responses ++ [errWord s.mode (if cause = .nonbinarySymbol then symField cmd else 0#8)
            (cmd.extractLsb' 44 4) cause] }
    | none => ∃ (t : State) (new : List Word), step s = .next t ∧ t.responses = s.responses ++ new ∧
        ∀ r ∈ new, rspKind r ≠ kindErr

/-- R145: `IllegalSequence` is decided by the opcode and `PHASE` alone: the start commands raise it exactly in `RUN`, `PUSH`
and `END` exactly in `IDLE`, and no operand matters. -/
def Obligations.IllegalSequenceNeedsOnlyThePhase : Prop :=
  ∀ (kind : StartKind) (w : Width) (p : Poly) (sym : Symbol) (s : State),
    let raised (op : Opcode) (cause : BitVec 8) : State :=
      { phase := .idle, mode := .none, width := 0#6, poly := 0#33, reg := 0#34, cnt := 0#6, commands := s.commands,
        responses := s.responses ++ [0xE#4 ++ s.mode.bits ++ 0#22 ++ 0#8 ++ op ++ cause] }
    (s.phase = .run → exec (startInstr kind w p) s = .next (raised (startInstr kind w p).opcode 0x41#8)) ∧
    (s.phase = .idle → exec (.push sym) s = .next (raised 0x4#4 0x42#8) ∧
      exec .endOp s = .next (raised 0x5#4 0x42#8))

/-- R152 (derived there): these are all the transitions of `PHASE`, over every next word, the words that are no command
included, and the reset row (as an edge of the ports, log entry 6). After a step the core is in `RUN` exactly if a start word
with a legal configuration came in `IDLE`, or the word of `NOP`, `STAT`, `PUSH '0'` or `PUSH '1'` came in `RUN`. -/
def Obligations.PhaseTransitionsAreTheTable : Prop :=
  (∀ (s t : State) (cmd : Word) (rest : List Word), s.Inv → s.commands = cmd :: rest → step s = .next t →
    (t.phase = .run ↔
      (s.phase = .idle ∧ ∃ (op : Opcode) (w : Width) (p : Poly), op ∈ [0x1#4, 0x2#4, 0x3#4] ∧
        cmd = op ++ 0#5 ++ w ++ p ∧ LegalConfig w.toNat p) ∨
      (s.phase = .run ∧ cmd ∈ [0x000000000000#48, 0x700000000000#48, 0x400000000030#48, 0x400000000031#48]))) ∧
  (∀ s t : State, s.commands = [] → step s = .next t → t.phase = s.phase) ∧
  ∀ (e : Edge) (p q : PortState), e.rst = true → clockEdge e p = .next q → q.core.phase = .idle ∧ q.core.responses = []

/-- R33: how many words a command emits: none, one, or `WIDTH + 1` (`END` in `ENC` mode), the one word of a raise included. -/
def Obligations.ResponseCounts : Prop :=
  ∀ (i : Instr) (s t : State), s.Inv → exec i s = .next t →
    ∃ new, t.responses = s.responses ++ new ∧
      new.length =
        (match i with
        | .nop => 0
        | .abort => 0
        | .stat => 1
        | .push sym => if s.phase = .run ∧ s.mode ≠ .enc ∧ (sym = 0x30#8 ∨ sym = 0x31#8) then 0 else 1
        | .endOp => if s.phase = .run ∧ s.mode = .enc ∧ s.cnt ≠ 0#6 then s.width.toNat + 1 else 1
        | .div w p => if s.phase = .idle ∧ LegalConfig w.toNat p then 0 else 1
        | .enc w p => if s.phase = .idle ∧ LegalConfig w.toNat p then 0 else 1
        | .ver w p => if s.phase = .idle ∧ LegalConfig w.toNat p then 0 else 1)

/-! ### The shape of a run (70_reset_and_hazards.md) -/

/-- R171 (derived there), `STATUS` words apart. A well-formed operation from `S0` ends in `S0`. If its call fails it emits
exactly one `ERR` of `InvalidConfig` or `InvalidInput`, preceded in `ENC` mode by the `CWSYM` words of the symbols accepted
before the failure, and then one `NOT_RUNNING` for each remaining `PUSH` and for the `END`; if the call succeeds it emits no
`ERR`. -/
def Obligations.WellFormedOperationErrors : Prop :=
  ∀ (kind : StartKind) (w : Width) (p : Poly) (body : List Instr) (s : State), s.isS0 →
    (∀ i ∈ body, i.isBody = true) →
    let err (m : Mode) (sym : Symbol) (op : Opcode) (cause : BitVec 8) : Word :=
      0xE#4 ++ m.bits ++ 0#22 ++ sym ++ op ++ cause
    let echoes (left : BitSequence) : List Word :=
      (left.map fun _ => err .none 0#8 0x4#4 0x42#8) ++ [err .none 0#8 0x5#4 0x42#8]
    let syms := symbolsOf body
    ∃ (t : State) (new : List Word), runWords (operationWords kind w p body) s = .next t ∧ t.isS0 ∧
      t.responses = s.responses ++ new ∧
      (¬ LegalConfig w.toNat p → ∃ cause ∈ [0x21#8, 0x22#8, 0x23#8],
        withoutStatus new = err .none 0#8 (startInstr kind w p).opcode cause :: echoes syms) ∧
      (LegalConfig w.toNat p → ∀ (before left : BitSequence) (bad : Symbol), syms = before ++ bad :: left →
        (bitsOf? before).isSome = true → bad ≠ 0x30#8 → bad ≠ 0x31#8 →
        withoutStatus new = (if kind = .enc then before.map cwsymWord else []) ++
          err (startMode kind) bad 0x4#4 0x11#8 :: echoes left) ∧
      (LegalConfig w.toNat p → kind = .enc → syms = [] → withoutStatus new = [err .enc 0#8 0x5#4 0x12#8]) ∧
      (LegalConfig w.toNat p → kind = .ver → (bitsOf? syms).isSome = true → syms.length < w.toNat →
        withoutStatus new = [err .ver 0#8 0x5#4 0x13#8]) ∧
      (LegalConfig w.toNat p → ((∃ r ∈ new, rspKind r = kindErr) ↔ referenceCall kind syms p w.toNat ≠ .ok ())) ∧
      ∀ r ∈ new, rspKind r = kindErr →
        (r.extractLsb' 4 4 = 1#4 ∨ r.extractLsb' 4 4 = 2#4 ∨ rspCause r = 0x42#8)

/-- R173: after a failed operation every queued `PUSH` and `END` raises one `NOT_RUNNING`, and the state stays `S0`. -/
def Obligations.QueuedCommandsEchoNotRunning : Prop :=
  ∀ (cmds : List Instr) (s : State), s.isS0 → (∀ i ∈ cmds, i = .endOp ∨ ∃ sym, i = .push sym) →
    runWords (cmds.map encode) s =
      .next { s with
        commands := []
        responses := s.responses ++ cmds.map fun i => 0xE#4 ++ 0#2 ++ 0#22 ++ 0#8 ++ i.opcode ++ 0x42#8 }

/-! ### The ports (20_memory.md R31 to R34, 70_reset_and_hazards.md R165 to R167) -/

/-- The reset input (R165, R167): one edge with `rst = 1` sets the state to `S0` and drops every pending word, from any
state; while it is 1 no command is accepted and no response delivered. The edge by edge form is the model's (log entry
6). -/
def Obligations.ResetEdgeDropsEverything : Prop :=
  ∀ (e : Edge) (p : PortState), e.rst = true → e.legal p = true →
    e.takesCommand = false ∧ e.takesResponse = false ∧
    ∃ q, clockEdge e p = .next q ∧ q.core.isS0 ∧ q.core.responses = [] ∧ q.accepted = [] ∧ q.delivered = []

/-- R33, R34, R39: whatever the host and the handshake do at each edge, the words delivered and pending are the response
trace of the words accepted, in order, "none dropped, none repeated, none invented"; a word delivered is the one on
`rsp_data`. The edge by edge form is the model's (log entry 6). -/
def Obligations.PortsDeliverTheRun : Prop :=
  PortState.reset.Agrees ∧
  ∀ (e : Edge) (p : PortState), p.Agrees → e.legal p = true →
    ∃ q, clockEdge e p = .next q ∧ q.Agrees ∧
      (e.rst = false →
        q.accepted = p.accepted ++ (if e.cmdValid && e.cmdReady then [e.cmdData] else []) ∧
        q.delivered = p.delivered ++ (if e.rspValid && e.rspReady then [e.rspData] else []))

/-! ### What a host may read (42_verifier.md R103, 41_encoder.md R96, 70_reset_and_hazards.md R174, R175) -/

/-- R103: `ZERO = 1` of a `VER` operation "only certifies 'no *detectable* error occurred'". For a codeword sent and a sequence
received in its place: the verdict is "no detectable error" exactly if the error pattern is a multiple of the generator; so
it is necessary for "received is sent"; and it is not sufficient, because every codeword longer than `W` has another of its
length. (The verdict as a value is log entry 18.) -/
def Obligations.ZeroMeansNoDetectableError : Prop :=
  ∀ (w : Width) (p : Poly) (sent : BitSequence), LegalConfig w.toNat p →
    verify sent p w.toNat = .ok ⟨zeros w.toNat, true⟩ →
    (∀ (body : List Instr) (s : State), s.isS0 → (∀ i ∈ body, i.isBody = true) →
      (bitsOf? (symbolsOf body)).isSome = true → (symbolsOf body).length = sent.length →
      ∃ (t : State) (new : List Word) (rsp : Word), runWords (operationWords .ver w p body) s = .next t ∧
        t.responses = s.responses ++ new ∧ withoutStatus new = [rsp] ∧
        verdictOf? rsp = some (if divide (xorSequence sent (symbolsOf body)) p w.toNat = .ok (zeros w.toNat)
          then .noDetectableError else .errorDetected) ∧
        (symbolsOf body = sent → verdictOf? rsp = some .noDetectableError)) ∧
    (w.toNat < sent.length → ∃ received : BitSequence, received ≠ sent ∧ received.length = sent.length ∧
      verify received p w.toNat = .ok ⟨zeros w.toNat, true⟩)

/-- R23, R175: only a `DONE` word of a `VER` operation carries a verdict, `ZERO`; no `DONE` of another mode, no `STATUS`,
`CWSYM` or `ERR` word does (R173: an `ERR` is no verdict on the data). The
verdict as a value is log entry 18. -/
def Obligations.OnlyVerifyCarriesAVerdict : Prop :=
  (∀ (m : Mode) (w : Width) (rem : Rem), verdictOf? (doneWord m w rem) =
    if m = .ver then some (if rem = 0#32 then .noDetectableError else .errorDetected) else none) ∧
  (∀ (m : Mode) (w : Width) (phase : Phase) (cnt : Count), verdictOf? (statusWord m w phase cnt) = none) ∧
  (∀ (m : Mode) (sym : Symbol) (op : Opcode) (c : Cause), verdictOf? (errWord m sym op c) = none) ∧
  ∀ sym : Symbol, verdictOf? (cwsymWord sym) = none

/-- R174, R96: the responses of an `ENC` operation deliver a codeword exactly if `encode` gives one, and it is that one; an
operation that ends in `ABORT` delivers none. The reading of a trace as a codeword is log entry 18. -/
def Obligations.CodewordIsCompleteOnlyWithDone : Prop :=
  ∀ (w : Width) (p : Poly) (body : List Instr) (s : State), s.isS0 → LegalConfig w.toNat p →
    (∀ i ∈ body, i.isBody = true) →
    (∃ (t : State) (new : List Word), runWords (operationWords .enc w p body) s = .next t ∧
      t.responses = s.responses ++ new ∧
      ∀ c : BitSequence, deliveredCodeword? new = some c ↔
        ∃ crc, encodeData (symbolsOf body) p w.toNat = .ok ⟨crc, c⟩) ∧
    ∃ (t : State) (new : List Word),
      runWords (encode (.enc w p) :: (body.map encode ++ [0x600000000000#48])) s = .next t ∧
      t.responses = s.responses ++ new ∧ deliveredCodeword? new = none
end

