-- ==== Sys2Proof/Laws/State.lean ====
section
/-! SUPPORT. One lemma per field per update of the state, true by rfl, so that no proof unfolds a record update. -/

namespace Sys2Proof.Machine

@[simp] theorem emit_phase (rsp : Word) (s : State) : (emit rsp s).phase = s.phase := rfl
@[simp] theorem emit_mode (rsp : Word) (s : State) : (emit rsp s).mode = s.mode := rfl
@[simp] theorem emit_width (rsp : Word) (s : State) : (emit rsp s).width = s.width := rfl
@[simp] theorem emit_poly (rsp : Word) (s : State) : (emit rsp s).poly = s.poly := rfl
@[simp] theorem emit_reg (rsp : Word) (s : State) : (emit rsp s).reg = s.reg := rfl
@[simp] theorem emit_cnt (rsp : Word) (s : State) : (emit rsp s).cnt = s.cnt := rfl
@[simp] theorem emit_commands (rsp : Word) (s : State) : (emit rsp s).commands = s.commands := rfl
@[simp] theorem emit_responses (rsp : Word) (s : State) : (emit rsp s).responses = s.responses ++ [rsp] := rfl

@[simp] theorem emitAll_phase (rsps : List Word) (s : State) : (emitAll rsps s).phase = s.phase := rfl
@[simp] theorem emitAll_mode (rsps : List Word) (s : State) : (emitAll rsps s).mode = s.mode := rfl
@[simp] theorem emitAll_width (rsps : List Word) (s : State) : (emitAll rsps s).width = s.width := rfl
@[simp] theorem emitAll_poly (rsps : List Word) (s : State) : (emitAll rsps s).poly = s.poly := rfl
@[simp] theorem emitAll_reg (rsps : List Word) (s : State) : (emitAll rsps s).reg = s.reg := rfl
@[simp] theorem emitAll_cnt (rsps : List Word) (s : State) : (emitAll rsps s).cnt = s.cnt := rfl
@[simp] theorem emitAll_commands (rsps : List Word) (s : State) : (emitAll rsps s).commands = s.commands := rfl
@[simp] theorem emitAll_responses (rsps : List Word) (s : State) : (emitAll rsps s).responses = s.responses ++ rsps := rfl

@[simp] theorem toIdle_phase (s : State) : (toIdle s).phase = .idle := rfl
@[simp] theorem toIdle_mode (s : State) : (toIdle s).mode = .none := rfl
@[simp] theorem toIdle_width (s : State) : (toIdle s).width = 0#6 := rfl
@[simp] theorem toIdle_poly (s : State) : (toIdle s).poly = 0#33 := rfl
@[simp] theorem toIdle_reg (s : State) : (toIdle s).reg = 0#34 := rfl
@[simp] theorem toIdle_cnt (s : State) : (toIdle s).cnt = 0#6 := rfl
@[simp] theorem toIdle_commands (s : State) : (toIdle s).commands = s.commands := rfl
@[simp] theorem toIdle_responses (s : State) : (toIdle s).responses = s.responses := rfl

@[simp] theorem raise_phase (op : Opcode) (cause : Cause) (sym : Symbol) (s : State) : (raise op cause sym s).phase = .idle := rfl
@[simp] theorem raise_mode (op : Opcode) (cause : Cause) (sym : Symbol) (s : State) : (raise op cause sym s).mode = .none := rfl
@[simp] theorem raise_width (op : Opcode) (cause : Cause) (sym : Symbol) (s : State) : (raise op cause sym s).width = 0#6 := rfl
@[simp] theorem raise_poly (op : Opcode) (cause : Cause) (sym : Symbol) (s : State) : (raise op cause sym s).poly = 0#33 := rfl
@[simp] theorem raise_reg (op : Opcode) (cause : Cause) (sym : Symbol) (s : State) : (raise op cause sym s).reg = 0#34 := rfl
@[simp] theorem raise_cnt (op : Opcode) (cause : Cause) (sym : Symbol) (s : State) : (raise op cause sym s).cnt = 0#6 := rfl
@[simp] theorem raise_commands (op : Opcode) (cause : Cause) (sym : Symbol) (s : State) : (raise op cause sym s).commands = s.commands := rfl
@[simp] theorem raise_responses (op : Opcode) (cause : Cause) (sym : Symbol) (s : State) : (raise op cause sym s).responses = s.responses ++ [errWord s.mode sym op cause] := rfl

@[simp] theorem openOperation_phase (mode : Mode) (width : Width) (poly : Poly) (s : State) : (openOperation mode width poly s).phase = .run := rfl
@[simp] theorem openOperation_mode (mode : Mode) (width : Width) (poly : Poly) (s : State) : (openOperation mode width poly s).mode = mode := rfl
@[simp] theorem openOperation_width (mode : Mode) (width : Width) (poly : Poly) (s : State) : (openOperation mode width poly s).width = width := rfl
@[simp] theorem openOperation_poly (mode : Mode) (width : Width) (poly : Poly) (s : State) : (openOperation mode width poly s).poly = poly := rfl
@[simp] theorem openOperation_reg (mode : Mode) (width : Width) (poly : Poly) (s : State) : (openOperation mode width poly s).reg = 0#34 := rfl
@[simp] theorem openOperation_cnt (mode : Mode) (width : Width) (poly : Poly) (s : State) : (openOperation mode width poly s).cnt = 0#6 := rfl
@[simp] theorem openOperation_commands (mode : Mode) (width : Width) (poly : Poly) (s : State) : (openOperation mode width poly s).commands = s.commands := rfl
@[simp] theorem openOperation_responses (mode : Mode) (width : Width) (poly : Poly) (s : State) : (openOperation mode width poly s).responses = s.responses := rfl

@[simp] theorem acceptBit_phase (b : Bool) (s : State) : (acceptBit b s).phase = s.phase := rfl
@[simp] theorem acceptBit_mode (b : Bool) (s : State) : (acceptBit b s).mode = s.mode := rfl
@[simp] theorem acceptBit_width (b : Bool) (s : State) : (acceptBit b s).width = s.width := rfl
@[simp] theorem acceptBit_poly (b : Bool) (s : State) : (acceptBit b s).poly = s.poly := rfl
@[simp] theorem acceptBit_reg (b : Bool) (s : State) : (acceptBit b s).reg = lfsrStep s.reg b s.width.toNat s.poly := rfl
@[simp] theorem acceptBit_cnt (b : Bool) (s : State) : (acceptBit b s).cnt = countNext s.cnt := rfl
@[simp] theorem acceptBit_commands (b : Bool) (s : State) : (acceptBit b s).commands = s.commands := rfl
@[simp] theorem acceptBit_responses (b : Bool) (s : State) : (acceptBit b s).responses = s.responses := rfl

@[simp] theorem finish_phase (rem : Rem) (s : State) : (finish rem s).phase = .idle := rfl
@[simp] theorem finish_mode (rem : Rem) (s : State) : (finish rem s).mode = .none := rfl
@[simp] theorem finish_width (rem : Rem) (s : State) : (finish rem s).width = 0#6 := rfl
@[simp] theorem finish_poly (rem : Rem) (s : State) : (finish rem s).poly = 0#33 := rfl
@[simp] theorem finish_reg (rem : Rem) (s : State) : (finish rem s).reg = 0#34 := rfl
@[simp] theorem finish_cnt (rem : Rem) (s : State) : (finish rem s).cnt = 0#6 := rfl
@[simp] theorem finish_commands (rem : Rem) (s : State) : (finish rem s).commands = s.commands := rfl
@[simp] theorem finish_responses (rem : Rem) (s : State) : (finish rem s).responses = s.responses ++ [doneWord s.mode s.width rem] := rfl

@[simp] theorem echoSymbol_phase (sym : Symbol) (s : State) : (echoSymbol sym s).phase = s.phase := rfl
@[simp] theorem echoSymbol_mode (sym : Symbol) (s : State) : (echoSymbol sym s).mode = s.mode := rfl
@[simp] theorem echoSymbol_width (sym : Symbol) (s : State) : (echoSymbol sym s).width = s.width := rfl
@[simp] theorem echoSymbol_poly (sym : Symbol) (s : State) : (echoSymbol sym s).poly = s.poly := rfl
@[simp] theorem echoSymbol_reg (sym : Symbol) (s : State) : (echoSymbol sym s).reg = s.reg := rfl
@[simp] theorem echoSymbol_cnt (sym : Symbol) (s : State) : (echoSymbol sym s).cnt = s.cnt := rfl
@[simp] theorem echoSymbol_commands (sym : Symbol) (s : State) : (echoSymbol sym s).commands = s.commands := rfl
@[simp] theorem echoSymbol_responses (sym : Symbol) (s : State) : (echoSymbol sym s).responses = s.responses ++ [cwsymWord sym] := rfl

@[simp] theorem presentWord_phase (cmd : Word) (s : State) : (presentWord cmd s).phase = s.phase := rfl
@[simp] theorem presentWord_mode (cmd : Word) (s : State) : (presentWord cmd s).mode = s.mode := rfl
@[simp] theorem presentWord_width (cmd : Word) (s : State) : (presentWord cmd s).width = s.width := rfl
@[simp] theorem presentWord_poly (cmd : Word) (s : State) : (presentWord cmd s).poly = s.poly := rfl
@[simp] theorem presentWord_reg (cmd : Word) (s : State) : (presentWord cmd s).reg = s.reg := rfl
@[simp] theorem presentWord_cnt (cmd : Word) (s : State) : (presentWord cmd s).cnt = s.cnt := rfl
@[simp] theorem presentWord_commands (cmd : Word) (s : State) : (presentWord cmd s).commands = cmd :: s.commands := rfl
@[simp] theorem presentWord_responses (cmd : Word) (s : State) : (presentWord cmd s).responses = s.responses := rfl

end Sys2Proof.Machine
end

