-- ==== Sys2Proof/Machine/AsmText.lean ====
section
/-! DEFINITION. The textual form of the assembler language (30_encoding.md R62, R63), one line at a time: mnemonics in upper
case, operands separated by a comma, `;` starts a comment, numbers decimal, `0x`, `0b` or a character in single quotes. -/

namespace Sys2Proof.Machine

/-- The characters that may stand between the parts of a line. -/
def isBlank (c : Char) : Bool := c == ' ' || c == '\t'

/-- The text without the blanks at its two ends. -/
def trimBlanks (t : List Char) : List Char :=
  ((t.dropWhile isBlank).reverse.dropWhile isBlank).reverse

/-- "`;` starts a comment" (R62), but not inside a string or a quoted character (DESIGN CHOICE, log entry 10). -/
def dropComment (inString : Bool) : List Char → List Char
  | [] => []
  | '\'' :: c :: '\'' :: rest =>
    if inString then '\'' :: dropComment inString (c :: '\'' :: rest)
    else '\'' :: c :: '\'' :: dropComment inString rest
  | c :: rest =>
    if c == '"' then c :: dropComment (!inString) rest
    else if c == ';' && !inString then []
    else c :: dropComment inString rest

/-- Digits in a base, with the value of those before them. -/
def digitsValue? (base : Nat) (acc : Nat) : List Char → Option Nat
  | [] => some acc
  | c :: rest =>
    match hexDigitValue? c with
    | some v => if v.toNat < base then digitsValue? base (acc * base + v.toNat) rest else none
    | none => none

/-- A number (R62): a quoted character stands for its symbol code. -/
def numberValue? : List Char → Option Nat
  | [] => none
  | ['\'', c, '\''] => some c.toNat
  | '0' :: 'x' :: d :: rest => digitsValue? 16 0 (d :: rest)
  | '0' :: 'b' :: d :: rest => digitsValue? 2 0 (d :: rest)
  | d :: rest => digitsValue? 10 0 (d :: rest)

/-- The name of a registry entry (R63). -/
def registryName? (t : List Char) : Option RegistryName :=
  if t = ['C', 'R', 'C', '-', '4'] then some .crc4
  else if t = ['C', 'R', 'C', '-', '5', '-', 'I', 'T', 'U'] then some .crc5Itu
  else if t = ['C', 'R', 'C', '-', '7'] then some .crc7
  else if t = ['C', 'R', 'C', '-', '8'] then some .crc8
  else none

/-- The text before and after the first comma that stands for itself: "operands separated by a comma" (R62). DESIGN CHOICE
(log entry 10): R62 does not say whether a comma in single quotes separates; here it is the quoted character and does not. -/
def splitOperands? : List Char → Option (List Char × List Char)
  | [] => none
  | '\'' :: c :: '\'' :: rest => (splitOperands? rest).map fun parts => ('\'' :: c :: '\'' :: parts.1, parts.2)
  | c :: rest => if c == ',' then some ([], rest) else (splitOperands? rest).map fun parts => (c :: parts.1, parts.2)

/-- The operands of a start command: `w, poly` or a registry name (R62, R63). -/
def startOperands? (kind : StartKind) (operands : List Char) : Option AsmLine :=
  match registryName? operands with
  | some name => some (.startNamed kind name)
  | none =>
    match splitOperands? operands with
    | some (first, second) =>
      match numberValue? (trimBlanks first), numberValue? (trimBlanks second) with
      | some w, some poly => some (.start kind w poly)
      | _, _ => none
    | none => none

/-- The operand of `PUSHS`: a string in double quotes (R63). -/
def stringCodes? (operand : List Char) : Option (List Nat) :=
  match operand with
  | '"' :: rest =>
    match rest.reverse with
    | '"' :: body => if body.contains '"' then none else some (body.reverse.map Char.toNat)
    | _ => none
  | _ => none

/-- A line that is not empty, from its mnemonic and the text after it (R62, R63). -/
def lineOf? (mnemonic operands : List Char) : Option AsmLine :=
  if mnemonic = ['N', 'O', 'P'] then if operands = [] then some .nop else none
  else if mnemonic = ['D', 'I', 'V'] then startOperands? .div operands
  else if mnemonic = ['E', 'N', 'C'] then startOperands? .enc operands
  else if mnemonic = ['V', 'E', 'R'] then startOperands? .ver operands
  else if mnemonic = ['P', 'U', 'S', 'H'] then (numberValue? operands).map .push
  else if mnemonic = ['P', 'U', 'S', 'H', 'S'] then (stringCodes? operands).map .pushS
  else if mnemonic = ['P', 'U', 'S', 'H', 'B'] then (numberValue? operands).map .pushB
  else if mnemonic = ['E', 'N', 'D'] then if operands = [] then some .endOp else none
  else if mnemonic = ['A', 'B', 'O', 'R', 'T'] then if operands = [] then some .abort else none
  else if mnemonic = ['S', 'T', 'A', 'T'] then if operands = [] then some .stat else none
  else if mnemonic = ['.', 'w', 'o', 'r', 'd'] then (numberValue? operands).map .word
  else none

/-- The words of one line of text; none where the assembler refuses it. A line that is blank or only a comment has no
words. -/
def assembleText (text : List Char) : Option (List Word) :=
  let line := trimBlanks (dropComment false text)
  if line = [] then some []
  else
    match lineOf? (line.takeWhile fun c => !isBlank c) (trimBlanks (line.dropWhile fun c => !isBlank c)) with
    | some l => assemble l
    | none => none

end Sys2Proof.Machine
end

