-- ==== Sys2Proof/Laws/Operands.lean ====
section
/-! SUPPORT. The small lemmas of the operand forms: symbols, remainders, the configuration check, the division step over a
list of bits. Proofs cite these instead of unfolding the definitions. -/

namespace Sys2Proof.Machine

@[simp] theorem bitOf?_symOf (b : Bool) : bitOf? (symOf b) = some b := by cases b <;> decide

theorem bitOf?_eq_some_iff (sym : Symbol) (b : Bool) : bitOf? sym = some b ↔ sym = symOf b := by
  constructor
  · intro h
    unfold bitOf? at h
    split at h
    · cases h; assumption
    · split at h
      · cases h; assumption
      · cases h
  · rintro rfl; exact bitOf?_symOf b

theorem bitOf?_eq_none_iff (sym : Symbol) : bitOf? sym = none ↔ sym ≠ 0x30#8 ∧ sym ≠ 0x31#8 := by
  unfold bitOf? Config.sym0 Config.sym1
  by_cases h0 : sym = 0x30#8 <;> by_cases h1 : sym = 0x31#8 <;> simp [h0, h1]

theorem symOf_injective {a b : Bool} (h : symOf a = symOf b) : a = b := by
  have := congrArg bitOf? h
  simpa using this

@[simp] theorem bitsOf?_nil : bitsOf? [] = some [] := rfl

@[simp] theorem bitsOf?_map_symOf (bs : List Bool) : bitsOf? (bs.map symOf) = some bs := by
  induction bs with
  | nil => rfl
  | cons b bs ih => simp [bitsOf?, ih]

/-- A sequence spells bits exactly when its symbols are the symbols of those bits. -/
theorem bitsOf?_eq_some_iff (bits : BitSequence) (bs : List Bool) :
    bitsOf? bits = some bs ↔ bits = bs.map symOf := by
  constructor
  · intro h
    induction bits generalizing bs with
    | nil => cases h; rfl
    | cons sym rest ih =>
      unfold bitsOf? at h
      split at h
      case h_1 b bs' hb hbs =>
        cases h
        rw [List.map_cons, ← ih _ hbs, ← (bitOf?_eq_some_iff sym b).mp hb]
      case h_2 => cases h
  · rintro rfl; exact bitsOf?_map_symOf bs

theorem bitsOf?_append {a b : BitSequence} {as bs : List Bool} (ha : bitsOf? a = some as) (hb : bitsOf? b = some bs) :
    bitsOf? (a ++ b) = some (as ++ bs) := by
  rw [bitsOf?_eq_some_iff] at *
  simp [ha, hb]

theorem zeros_eq_map (n : Nat) : zeros n = (List.replicate n false).map symOf := by
  simp [zeros, symOf]

@[simp] theorem bitsOf?_zeros (n : Nat) : bitsOf? (zeros n) = some (List.replicate n false) := by
  rw [zeros_eq_map, bitsOf?_map_symOf]

@[simp] theorem remstr_length {n : Nat} (v : BitVec n) (width : Nat) : (remstr v width).length = width := by
  simp [remstr]

/-- The bits a remainder string spells. -/
theorem remstr_eq_map {n : Nat} (v : BitVec n) (width : Nat) :
    remstr v width = ((List.range width).map fun k => v.getLsbD (width - 1 - k)).map symOf := by
  simp [remstr]

@[simp] theorem shiftIn_nil (r : Reg) (width : Nat) (poly : Poly) : shiftIn r [] width poly = r := rfl

@[simp] theorem shiftIn_cons (r : Reg) (b : Bool) (bits : List Bool) (width : Nat) (poly : Poly) :
    shiftIn r (b :: bits) width poly = shiftIn (lfsrStep r b width poly) bits width poly := rfl

theorem shiftIn_append (r : Reg) (a b : List Bool) (width : Nat) (poly : Poly) :
    shiftIn r (a ++ b) width poly = shiftIn (shiftIn r a width poly) b width poly := by
  simp [shiftIn]

/-- The configuration check passes exactly on the legal configurations (R144). -/
theorem checkConfig_eq_none_iff (width : Width) (poly : Poly) :
    checkConfig width poly = none ↔ LegalConfig width.toNat poly := by
  unfold checkConfig Config.wmin Config.wmax LegalConfig
  split
  · simp; omega
  · split
    · simp; omega
    · split
      case isTrue h =>
        simp only [reduceCtorEq, false_iff, not_and]
        intro _ _ hp hz
        rcases h with h | h
        · rw [hp] at h; cases h
        · exact h hz
      case isFalse h =>
        rw [not_or] at h
        simp only [true_iff]
        exact ⟨by omega, by omega, by simpa using h.1, by simpa using h.2⟩

/-- The two operands with the comma between them are the text (R62): a split drops and adds no character. -/
theorem eq_of_splitOperands?_eq_some (text : List Char) :
    ∀ parts, splitOperands? text = some parts → text = parts.1 ++ ',' :: parts.2 := by
  induction text using splitOperands?.induct with
  | case1 => simp [splitOperands?]
  | case2 c rest ih =>
    intro parts h
    simp only [splitOperands?, Option.map_eq_some_iff] at h
    obtain ⟨q, hq, rfl⟩ := h
    simp [← ih q hq]
  | case3 c rest hn ih => simp_all [splitOperands?]
  | case4 c rest hn hc ih =>
    intro parts h
    rw [splitOperands?, if_neg hc, Option.map_eq_some_iff] at h
    · obtain ⟨q, hq, rfl⟩ := h
      simp [← ih q hq]
    · exact hn

end Sys2Proof.Machine
end

