-- ==== Sys2Proof/Laws/Ops.lean ====
section
/-! SUPPORT. What each shared operation and each meaning can do, said once: the start sequence, `PUSH`, `END`, a step, and a
run over a list of words. -/

namespace Sys2Proof.Machine

/-- What `start` can answer (R75): a raise in `RUN`, a raise of the failed configuration check, or the operation open. -/
theorem start_cases (op : Opcode) (mode : Mode) (width : Width) (poly : Poly) (s : State) :
    (s.phase = .run ∧ start op mode width poly s = raise op .notIdle 0#8 s) ∨
    (s.phase = .idle ∧ ∃ cause, checkConfig width poly = some cause ∧
      start op mode width poly s = raise op cause 0#8 s) ∨
    (s.phase = .idle ∧ LegalConfig width.toNat poly ∧
      start op mode width poly s = openOperation mode width poly s) := by
  unfold start
  cases hp : s.phase with
  | run => exact .inl ⟨rfl, rfl⟩
  | idle =>
    cases hc : checkConfig width poly with
    | some cause => exact .inr (.inl ⟨rfl, cause, rfl, rfl⟩)
    | none => exact .inr (.inr ⟨rfl, (checkConfig_eq_none_iff width poly).mp hc, rfl⟩)

/-- What `PUSH` can answer (R76). -/
theorem execPush_cases (sym : Symbol) (s : State) :
    (s.phase = .idle ∧ execPush sym s = .next (raise 0x4#4 .notRunning 0#8 s)) ∨
    (s.phase = .run ∧ bitOf? sym = none ∧ execPush sym s = .next (raise 0x4#4 .nonbinarySymbol sym s)) ∨
    (s.phase = .run ∧ ∃ b, bitOf? sym = some b ∧ execPush sym s =
      .next (if s.mode = .enc then echoSymbol sym (acceptBit b s) else acceptBit b s)) := by
  unfold execPush
  cases hp : s.phase with
  | idle => exact .inl ⟨rfl, rfl⟩
  | run =>
    cases hb : bitOf? sym with
    | none => exact .inr (.inl ⟨rfl, rfl, rfl⟩)
    | some b => exact .inr (.inr ⟨rfl, b, rfl, rfl⟩)

/-- What `END` can answer (R78). -/
theorem execEnd_cases (s : State) :
    (s.phase = .idle ∧ execEnd s = .next (raise 0x5#4 .notRunning 0#8 s)) ∨
    (s.phase = .run ∧ s.mode = .none ∧ execEnd s = .fault .endWithoutMode) ∨
    (s.phase = .run ∧ s.mode = .div ∧ execEnd s = .next (endDivide s)) ∨
    (s.phase = .run ∧ s.mode = .enc ∧ execEnd s = .next (endEncode s)) ∨
    (s.phase = .run ∧ s.mode = .ver ∧ execEnd s = .next (endVerify s)) := by
  unfold execEnd
  cases hp : s.phase with
  | idle => exact .inl ⟨rfl, rfl⟩
  | run => cases hm : s.mode <;> simp

theorem step_nil {s : State} (h : s.commands = []) : step s = .next s := by
  simp [step, takeCommand, h]

/-- A step with a word presented accepts that word. -/
theorem step_cons {s : State} {cmd : Word} {rest : List Word} (h : s.commands = cmd :: rest) :
    step s = acceptWord cmd { s with commands := rest } := by
  simp [step, takeCommand, h]

theorem acceptWord_of_decode {cmd : Word} {i : Instr} (h : decode cmd = .ok i) (s : State) :
    acceptWord cmd s = exec i s := by
  simp [acceptWord, h]

theorem acceptWord_of_error {cmd : Word} {e : DecodeError} (h : decode cmd = .error e) (s : State) :
    acceptWord cmd s = .next (raise (opField cmd) (decodeCause e) 0#8 s) := by
  simp [acceptWord, h]

/-- `runSteps` is the host's run of this core. -/
theorem runSteps_eq_run (k : Nat) (s : State) : runSteps k s = Host.Core.run Sys2Proof.core k s := by
  induction k generalizing s with
  | zero => rfl
  | succ k ih =>
    unfold runSteps
    cases h : step s with
    | next t =>
      have h' : Sys2Proof.core.step s = .next t := h
      simp only [ih, Host.Core.run.eq_def Sys2Proof.core (k + 1) s, h']
      rfl
    | fault r =>
      have h' : Sys2Proof.core.step s = .fault r := h
      simp only [Host.Core.run.eq_def Sys2Proof.core (k + 1) s, h']
      rfl
    | refused r =>
      have h' : Sys2Proof.core.step s = .refused r := h
      simp only [Host.Core.run.eq_def Sys2Proof.core (k + 1) s, h']
      rfl

@[simp] theorem runWords_nil (s : State) : runWords [] s = .next { s with commands := [] } := rfl

/-- A run over a word and the words after it: the word is accepted with the others still waiting. -/
theorem runWords_cons (cmd : Word) (rest : List Word) (s : State) :
    runWords (cmd :: rest) s =
      match acceptWord cmd { s with commands := rest } with
      | .next t => runSteps rest.length t
      | .fault r => .fault r
      | .refused r => .refused r := by
  rw [← step_cons (s := { s with commands := cmd :: rest }) rfl]
  rfl

/-- The same where the accepted command leaves the waiting words alone, as every command does. -/
theorem runWords_cons_next {cmd : Word} {rest : List Word} {s t : State}
    (h : acceptWord cmd { s with commands := rest } = .next t) (ht : t.commands = rest) :
    runWords (cmd :: rest) s = runWords rest t := by
  subst ht
  rw [runWords_cons, h]
  rfl

/-- Nothing is tracked while no operation is open (R28 item 3 speaks of `RUN` only). -/
theorem State.tracks_of_idle {s : State} (h : s.phase = .idle) (bits : List Bool) : s.Tracks bits := by
  intro hr
  rw [h] at hr
  cases hr

theorem bitsAfter_of_idle {s : State} (h : s.phase = .idle) (bits : List Bool) : bitsAfter s bits = [] := by
  unfold bitsAfter
  rw [h]

theorem bitsAfter_nil {s : State} (hr : s.phase = .run) (h : s.commands = []) (bits : List Bool) :
    bitsAfter s bits = bits := by
  unfold bitsAfter
  rw [hr, h]

end Sys2Proof.Machine
end

