-- ==== Sys2Proof/Laws/PerInstr.lean ====
section
/-! SUPPORT. Facts about every command as syntax, one lemma per constructor. `TableMatch`: the word of a command matches the
row of spec/opcode_table.json that carries its mnemonic (30_encoding.md R65). -/

namespace Sys2Proof.Laws.TableMatch

/-- Some row of the table has the command's mnemonic and accepts its word. -/
def Statement (i : Instr) : Prop := ∃ row ∈ opcodeTable, row.mnemonic = i.mnemonic ∧ row.accepts (encode i) = true

theorem accepts_of_bits (row : OpcodeRow) (cmd : Word)
    (h : ∀ k < 48, (cmd.getLsbD k && row.mask.getLsbD k) = row.pattern.getLsbD k) : row.accepts cmd = true := by
  unfold OpcodeRow.accepts
  rw [beq_iff_eq]
  apply BitVec.eq_of_getLsbD_eq
  intro k hk
  rw [BitVec.getLsbD_and]
  exact h k hk

theorem nop : Statement .nop := ⟨⟨"NOP", 0x000000000000#48, 0xFFFFFFFFFFFF#48⟩, by decide, rfl, by decide⟩

theorem wordS_accepts (op : Opcode) (w : Width) (p : Poly) (name : String) :
    (OpcodeRow.mk name (wordS op 0#6 0#33) 0xFF8000000000#48).accepts (wordS op w p) = true := by
  apply accepts_of_bits
  intro k hk
  have hm : (0xFF8000000000#48).getLsbD k = decide (39 ≤ k) := by
    revert k; decide
  rw [hm]
  simp only [wordS, BitVec.getLsbD_append]
  by_cases h1 : k < 33
  · simp [h1]; omega
  · by_cases h2 : k - 33 < 6
    · simp [h1, h2]; omega
    · simp [h1, h2]; omega

theorem div (w : Width) (p : Poly) : Statement (.div w p) :=
  ⟨⟨"DIV", 0x100000000000#48, 0xFF8000000000#48⟩, by decide, rfl, wordS_accepts 0x1#4 w p "DIV"⟩

theorem enc (w : Width) (p : Poly) : Statement (.enc w p) :=
  ⟨⟨"ENC", 0x200000000000#48, 0xFF8000000000#48⟩, by decide, rfl, wordS_accepts 0x2#4 w p "ENC"⟩

theorem ver (w : Width) (p : Poly) : Statement (.ver w p) :=
  ⟨⟨"VER", 0x300000000000#48, 0xFF8000000000#48⟩, by decide, rfl, wordS_accepts 0x3#4 w p "VER"⟩

theorem push (sym : Symbol) : Statement (.push sym) :=
  ⟨⟨"PUSH", 0x400000000000#48, 0xFFFFFFFFFF00#48⟩, by decide, rfl, by revert sym; decide⟩

theorem endOp : Statement .endOp := ⟨⟨"END", 0x500000000000#48, 0xFFFFFFFFFFFF#48⟩, by decide, rfl, by decide⟩

theorem abort : Statement .abort := ⟨⟨"ABORT", 0x600000000000#48, 0xFFFFFFFFFFFF#48⟩, by decide, rfl, by decide⟩

theorem stat : Statement .stat := ⟨⟨"STAT", 0x700000000000#48, 0xFFFFFFFFFFFF#48⟩, by decide, rfl, by decide⟩

end Sys2Proof.Laws.TableMatch
end

