-- ==== Sys2Proof/Laws/Words.lean ====
section
/-! SUPPORT. The fields of the words the encoder makes (30_encoding.md R46 to R49) and the kinds of the words the core emits
(R52), so that no proof takes a concatenation apart again. -/

namespace Sys2Proof.Machine

/-- The fields of a word of format S are what it was made of, its reserved field is zero (R47). -/
theorem wordS_fields (op : Opcode) (w : Width) (p : Poly) :
    opField (wordS op w p) = op ∧ rsvS (wordS op w p) = 0#5 ∧ widthField (wordS op w p) = w ∧
      polyField (wordS op w p) = p := by
  refine ⟨?_, ?_, ?_, ?_⟩ <;> apply BitVec.eq_of_getLsbD_eq <;> intro i hi
  · simp only [opField, BitVec.getLsbD_extractLsb', hi, decide_true, Bool.true_and, wordS, BitVec.getLsbD_append]
    repeat rw [if_neg (by omega)]
    congr 1; omega
  all_goals
    simp only [rsvS, widthField, polyField, BitVec.getLsbD_extractLsb', hi, decide_true, Bool.true_and, wordS,
      BitVec.getLsbD_append]
    repeat rw [if_neg (by omega)]
    rw [if_pos (by omega)]
    congr 1; omega

/-- The fields of a word of format P are what it was made of, its reserved field is zero (R48). -/
theorem wordP_fields (op : Opcode) (sym : Symbol) :
    opField (wordP op sym) = op ∧ rsvP (wordP op sym) = 0#36 ∧ symField (wordP op sym) = sym := by
  refine ⟨?_, ?_, ?_⟩ <;> apply BitVec.eq_of_getLsbD_eq <;> intro i hi
  · simp only [opField, BitVec.getLsbD_extractLsb', hi, decide_true, Bool.true_and, wordP, BitVec.getLsbD_append]
    repeat rw [if_neg (by omega)]
    congr 1; omega
  all_goals
    simp only [rsvP, symField, BitVec.getLsbD_extractLsb', hi, decide_true, Bool.true_and, wordP, BitVec.getLsbD_append]
    repeat rw [if_neg (by omega)]
    rw [if_pos (by omega)]
    congr 1; omega

/-- The opcode of a word of format Z is what it was made of, its reserved field is zero (R49). -/
theorem wordZ_fields (op : Opcode) : opField (wordZ op) = op ∧ rsvZ (wordZ op) = 0#44 := by
  revert op; decide

/-- A word of format S from its fields (R46). -/
theorem eq_fieldsS (cmd : Word) : cmd = opField cmd ++ rsvS cmd ++ widthField cmd ++ polyField cmd := by
  apply BitVec.eq_of_getLsbD_eq
  intro i hi
  simp only [opField, rsvS, widthField, polyField, BitVec.getLsbD_append, BitVec.getLsbD_extractLsb']
  split
  · simp [*]
  · split
    · simp [*]; congr 1; omega
    · split
      · simp [*]; congr 1; omega
      · rw [decide_eq_true (by omega), Bool.true_and]; congr 1; omega

theorem rspKind_doneWord (mode : Mode) (width : Width) (rem : Rem) : rspKind (doneWord mode width rem) = kindDone := by
  apply BitVec.eq_of_getLsbD_eq; intro i hi
  simp only [rspKind, BitVec.getLsbD_extractLsb', hi, decide_true, Bool.true_and, doneWord, BitVec.getLsbD_append]
  repeat rw [if_neg (by omega)]
  congr 1; omega

theorem rspKind_errWord (mode : Mode) (sym : Symbol) (op : Opcode) (cause : Cause) :
    rspKind (errWord mode sym op cause) = kindErr := by
  apply BitVec.eq_of_getLsbD_eq; intro i hi
  simp only [rspKind, BitVec.getLsbD_extractLsb', hi, decide_true, Bool.true_and, errWord, BitVec.getLsbD_append]
  repeat rw [if_neg (by omega)]
  congr 1; omega

theorem rspKind_statusWord (mode : Mode) (width : Width) (phase : Phase) (cnt : Count) :
    rspKind (statusWord mode width phase cnt) = kindStatus := by
  apply BitVec.eq_of_getLsbD_eq; intro i hi
  simp only [rspKind, BitVec.getLsbD_extractLsb', hi, decide_true, Bool.true_and, statusWord, BitVec.getLsbD_append]
  repeat rw [if_neg (by omega)]
  congr 1; omega

theorem rspKind_cwsymWord (sym : Symbol) : rspKind (cwsymWord sym) = kindCwsym := by
  revert sym; decide

theorem rspSym_cwsymWord (sym : Symbol) : rspSym (cwsymWord sym) = sym := by
  revert sym; decide

theorem withoutStatus_append (a b : List Word) : withoutStatus (a ++ b) = withoutStatus a ++ withoutStatus b := by
  simp [withoutStatus]

/-- A word that is no `DONE` carries no verdict (R173, R175). -/
theorem verdictOf?_of_kind_ne {rsp : Word} (h : rspKind rsp ≠ kindDone) : verdictOf? rsp = none :=
  if_neg fun k => h k.1

/-- What a trace has to end in for its `CWSYM` words to be a codeword (R174). -/
theorem deliveredCodeword?_eq_some_iff (rsps : List Word) (c : BitSequence) :
    deliveredCodeword? rsps = some c ↔
      (∃ rsp, (withoutStatus rsps).getLast? = some rsp ∧ rspKind rsp = kindDone ∧ rspMode rsp = Mode.enc.bits) ∧
        cwsymSymbols rsps = c := by
  unfold deliveredCodeword?
  split
  · simp [*]
  · split <;> simp [*]

end Sys2Proof.Machine
end

