-- ==== Sys2Proof/Tests/Slice0.lean ====
section
/-! SUPPORT. Tests. Every expected value is one the spec writes down: the worked examples, vectors and programs of
95_test_vectors.md (E, V, P), the example rows of the command rules, the table words of 30_encoding.md R64. The last part
gives, for every statement of Obligations.lean that has hypotheses, operands and a state that meet them. -/

namespace Sys2Proof.Tests

open Sys2Proof Sys2Proof.Machine

/-! ### Helpers -/

/-- A state with an operation open, in the notation of 95_test_vectors.md. -/
def running (mode : Mode) (width poly reg cnt : Nat) (commands : List Word) : State where
  phase := .run
  mode := mode
  width := BitVec.ofNat 6 width
  poly := BitVec.ofNat 33 poly
  reg := BitVec.ofNat 34 reg
  cnt := BitVec.ofNat 6 cnt
  commands := commands
  responses := []

/-- `S0` with words presented and words emitted. -/
def idle (commands responses : List Word) : State :=
  { State.reset with commands := commands, responses := responses }

/-- A BitSequence from its characters. -/
def seqOf (text : String) : BitSequence := text.toList.map fun c => BitVec.ofNat 8 c.toNat

/-- State `B` of V5: after `ENC CRC-4`, `PUSHS "101"`. -/
def stateB (commands : List Word) : State := running .enc 4 0x13 0x5 3 commands

/-- The commands of `PUSHS "..."`. -/
def pushes (text : String) : List Instr := (seqOf text).map Instr.push

/-! ### Well-formedness (R62, R63): each check refuses an ill-formed line -/

theorem test_wellFormed_refuses :
    (AsmLine.start .div 64 0x13).wellFormed = false ∧ (AsmLine.start .enc 4 (2 ^ 33)).wellFormed = false ∧
    (AsmLine.push 256).wellFormed = false ∧ (AsmLine.pushS [0x30, 256]).wellFormed = false ∧
    (AsmLine.pushB 2).wellFormed = false ∧ (AsmLine.word (2 ^ 48)).wellFormed = false := by decide

/-- R62: the assembler "does not refuse a `w` of 0 or above 32 or a malformed `poly`". -/
theorem test_wellFormed_takes :
    (AsmLine.start .div 0 0).wellFormed = true ∧ (AsmLine.start .ver 63 (2 ^ 33 - 1)).wellFormed = true ∧
    (AsmLine.push 255).wellFormed = true ∧ (AsmLine.pushS []).wellFormed = true ∧ (AsmLine.pushB 1).wellFormed = true ∧
    (AsmLine.word (2 ^ 48 - 1)).wellFormed = true := by decide

/-! ### Decoding: words written bit by bit from R46 to R50 (`OP`, reserved, `WIDTH`, `POLY` or `SYM`) and from R64 -/

theorem test_decode_nop : decode 0b0000_00000000000000000000000000000000000000000000#48 = .ok .nop := by decide

theorem test_decode_div :
    decode 0b0001_00000_000100_000000000000000000000000000010011#48 = .ok (.div 4#6 0x13#33) ∧
    decode 0x100E00000089#48 = .ok (.div 7#6 0x89#33) := by decide

theorem test_decode_enc :
    decode 0b0010_00000_100000_100000100110000010001110110110111#48 = .ok (.enc 32#6 0x104C11DB7#33) ∧
    decode 0x200200000003#48 = .ok (.enc 1#6 3#33) := by decide

theorem test_decode_ver :
    decode 0b0011_00000_001000_000000000000000000000000100000111#48 = .ok (.ver 8#6 0x107#33) ∧
    decode 0x300A00000025#48 = .ok (.ver 5#6 0x25#33) := by decide

theorem test_decode_push :
    decode 0b0100_000000000000000000000000000000000000_00110001#48 = .ok (.push 0x31#8) ∧
    decode 0x4000000000FF#48 = .ok (.push 0xFF#8) := by decide

theorem test_decode_end : decode 0b0101_00000000000000000000000000000000000000000000#48 = .ok .endOp := by decide

theorem test_decode_abort : decode 0b0110_00000000000000000000000000000000000000000000#48 = .ok .abort := by decide

theorem test_decode_stat : decode 0b0111_00000000000000000000000000000000000000000000#48 = .ok .stat := by decide

/-- V4, V5, V7, V8: the reserved words of the vectors are refused by name. -/
theorem test_decode_reserved :
    decode 0x308800000013#48 = .error .reservedField ∧ decode 0x400000000131#48 = .error .reservedField ∧
    decode 0x480000000030#48 = .error .reservedField ∧ decode 0x680000000000#48 = .error .reservedField ∧
    decode 0x700000000040#48 = .error .reservedField ∧ decode 0x800000000000#48 = .error .reservedOpcode ∧
    decode 0xFFFFFFFFFFFF#48 = .error .reservedOpcode := by decide

/-- R64: the words of the registry's start commands. -/
theorem test_encode_registry :
    encode (.div 4#6 0x13#33) = 0x100800000013#48 ∧ encode (.enc 5#6 0x25#33) = 0x200A00000025#48 ∧
    encode (.ver 7#6 0x89#33) = 0x300E00000089#48 ∧ encode (.enc 8#6 0x107#33) = 0x201000000107#48 := by decide

theorem test_decodeTableWord :
    decodeTableWord 48 0x400000000031 = some (.push 0x31#8) ∧ decodeTableWord 48 0x800000000000 = none := by decide

/-- The very next step after `withFetchWord` runs the word, from reset. -/
theorem test_withFetchWord :
    step (State.reset.withFetchWord 48 0x100800000013) = .next (running .div 4 0x13 0 0 []) := rfl

/-! ### Steps (95_test_vectors.md V3 to V8) -/

theorem test_nop : step (stateB [0x000000000000#48]) = .next (stateB []) := rfl

/-- V7: a `NOP` with a non-zero reserved field drops the operation. -/
theorem test_nop_reserved :
    step (stateB [0x000000000001#48]) = .next (idle [] [0xE80000000032#48]) := rfl

theorem test_div_legal_extremes :
    step (idle [0x100200000002#48] []) = .next (running .div 1 0x2 0 0 []) ∧
    step (idle [0x104100000000#48] []) = .next (running .div 32 0x100000000 0 0 []) := ⟨rfl, rfl⟩

theorem test_div_refused :
    step (idle [0x100000000013#48] []) = .next (idle [] [0xE00000000121#48]) ∧
    step (idle [0x104200000013#48] []) = .next (idle [] [0xE00000000122#48]) ∧
    step (idle [0x100800000003#48] []) = .next (idle [] [0xE00000000123#48]) ∧
    step (stateB [0x100800000013#48]) = .next (idle [] [0xE80000000141#48]) := ⟨rfl, rfl, rfl, rfl⟩

theorem test_enc_legal : step (idle [0x2041FFFFFFFF#48] []) = .next (running .enc 32 0x1FFFFFFFF 0 0 []) := rfl

theorem test_enc_refused :
    step (idle [0x207FFFFFFFFF#48] []) = .next (idle [] [0xE00000000222#48]) ∧
    step (idle [0x200800000033#48] []) = .next (idle [] [0xE00000000223#48]) ∧
    step (stateB [0x200000000000#48]) = .next (idle [] [0xE80000000241#48]) := ⟨rfl, rfl, rfl⟩

theorem test_ver_legal : step (idle [0x303E80000001#48] []) = .next (running .ver 31 0x80000001 0 0 []) := rfl

theorem test_ver_refused :
    step (idle [0x304004C11DB7#48] []) = .next (idle [] [0xE00000000323#48]) ∧
    step (stateB [0x308800000013#48]) = .next (idle [] [0xE80000000332#48]) := ⟨rfl, rfl⟩

/-- V5 rows 2, 4 and 5, and the example of R76. -/
theorem test_push_binary :
    step (running .div 4 0x13 0x5 3 [0x400000000031#48]) = .next (running .div 4 0x13 0xB 4 []) ∧
    step (stateB [0x400000000031#48]) =
      .next { running .enc 4 0x13 0xB 4 [] with responses := [0xC00000000031#48] } ∧
    step (running .ver 4 0x13 0x5 3 [0x400000000030#48]) = .next (running .ver 4 0x13 0xA 4 []) ∧
    step (running .div 4 0x13 0b01010 4 [0x400000000030#48]) = .next (running .div 4 0x13 0b00111 5 []) :=
  ⟨rfl, rfl, rfl, rfl⟩

/-- V5 rows 6, 11, 13 and 14; V9: the counter saturates. -/
theorem test_push_corners :
    step (running .div 4 0x13 0x5 3 [0x400000000000#48]) = .next (idle [] [0xE40000000411#48]) ∧
    step (stateB [0x4000000000B1#48]) = .next (idle [] [0xE800000B1411#48]) ∧
    step (idle [0x400000000078#48] []) = .next (idle [] [0xE00000000442#48]) ∧
    step (running .div 4 0x13 0x5 3 [0x400000000131#48]) = .next (idle [] [0xE40000000432#48]) ∧
    step (running .ver 4 0x13 0 32 [0x400000000031#48]) = .next (running .ver 4 0x13 1 32 []) :=
  ⟨rfl, rfl, rfl, rfl, rfl⟩

/-- E1's last command; the last command of E3 with V12's register; V6 rows 2, 9 and 10; V11 row 10 with `CNT` saturated at
the width. -/
theorem test_end_done :
    step (running .enc 4 0x13 0xA 4 [0x500000000000#48]) = .next (idle []
      [0xC00000000031#48, 0xC00000000031#48, 0xC00000000030#48, 0xC00000000031#48, 0xD8400000000D#48]) ∧
    step (running .enc 8 0x107 0x2C 12 [0x500000000000#48]) = .next (idle [] ((seqOf "11000100").map cwsymWord ++
      [0xD880000000C4#48])) ∧
    step (running .div 4 0x13 0 0 [0x500000000000#48]) = .next (idle [] [0xD44100000000#48]) ∧
    step (running .ver 4 0x13 0xD 4 [0x500000000000#48]) = .next (idle [] [0xDC400000000D#48]) ∧
    step (running .ver 4 0x13 0 4 [0x500000000000#48]) = .next (idle [] [0xDC4100000000#48]) ∧
    step (running .ver 32 0x104C11DB7 0xFFFFFFFF 32 [0x500000000000#48]) =
      .next (idle [] [0xDE00FFFFFFFF#48]) := ⟨rfl, rfl, rfl, rfl, rfl, rfl⟩

/-- V6 rows 1, 5, 8 and 13; V11 row 9. -/
theorem test_end_raises :
    step (idle [0x500000000000#48] []) = .next (idle [] [0xE00000000542#48]) ∧
    step (running .enc 4 0x13 0 0 [0x500000000000#48]) = .next (idle [] [0xE80000000512#48]) ∧
    step (running .ver 4 0x13 0x6 3 [0x500000000000#48]) = .next (idle [] [0xEC0000000513#48]) ∧
    step (running .div 4 0x13 0x1 1 [0x500000000001#48]) = .next (idle [] [0xE40000000532#48]) ∧
    step (running .ver 32 0x104C11DB7 0x7FFFFFFF 31 [0x500000000000#48]) =
      .next (idle [] [0xEC0000000513#48]) := ⟨rfl, rfl, rfl, rfl, rfl⟩

theorem test_abort : step (stateB [0x600000000000#48]) = .next (idle [] []) := rfl

theorem test_abort_reserved : step (stateB [0x680000000000#48]) = .next (idle [] [0xE80000000632#48]) := rfl

/-- V7, P4 command 6 and V9. -/
theorem test_stat :
    step (stateB [0x700000000000#48]) = .next { stateB [] with responses := [0xA84000000043#48] } ∧
    step (idle [0x700000000000#48] []) = .next (idle [] [0xA00000000000#48]) ∧
    step (running .div 7 0x89 0xF 4 [0x700000000000#48]) =
      .next { running .div 7 0x89 0xF 4 [] with responses := [0xA47000000044#48] } ∧
    step (running .ver 4 0x13 0 32 [0x700000000000#48]) =
      .next { running .ver 4 0x13 0 32 [] with responses := [0xAC4000000060#48] } := ⟨rfl, rfl, rfl, rfl⟩

theorem test_stat_reserved : step (stateB [0x700000000040#48]) = .next (idle [] [0xE80000000732#48]) := rfl

/-- V8: a response word fed back as a command is refused. -/
theorem test_reserved_opcode :
    step (stateB [0xC00000000031#48]) = .next (idle [] [0xE80000000C31#48]) ∧
    step (idle [0xFFFFFFFFFFFF#48] []) = .next (idle [] [0xE00000000F31#48]) := ⟨rfl, rfl⟩

/-- The unreachable corner of R78: `END` in `RUN` with no mode. -/
theorem test_end_without_mode : step (running .none 4 0x13 0 0 [0x500000000000#48]) = .fault .endWithoutMode := rfl

/-! ### The division step and the reference functions (V1, V2, V10, E1, E2) -/

theorem test_lfsrStep :
    lfsrStep 0xA#34 false 4 0x13#33 = 0x7#34 ∧ lfsrStep 0xF#34 true 4 0x13#33 = 0xC#34 ∧
    lfsrStep 0x1#34 true 1 0x3#33 = 0x0#34 ∧ lfsrStep 0x80000000#34 false 32 0x104C11DB7#33 = 0x4C11DB7#34 ∧
    lfsrStep 0xFFFFFFFF#34 true 32 0x100000000#33 = 0xFFFFFFFF#34 ∧ lfsrStep 0xB1#34 true 8 0x107#33 = 0x64#34 := by
  decide

theorem test_divide :
    divide (seqOf "10100000") 0x13#33 4 = .ok (seqOf "1101") ∧ divide (seqOf "") 0x13#33 4 = .ok (seqOf "0000") ∧
    divide (seqOf "11111111") 0x25#33 5 = .ok (seqOf "00100") ∧ divide (seqOf "10") 0x2#33 1 = .ok (seqOf "0") ∧
    divide (seqOf "102") 0x13#33 4 = .error .invalidInput ∧ divide (seqOf "1") 0x13#33 33 = .error .invalidConfig ∧
    divide (seqOf "1") 0x13#33 0 = .error .invalidConfig := by decide

theorem test_encodeData :
    encodeData (seqOf "1010") 0x13#33 4 = .ok ⟨seqOf "1101", seqOf "10101101"⟩ ∧
    encodeData (seqOf "1010") 0x25#33 5 = .ok ⟨seqOf "00111", seqOf "101000111"⟩ ∧
    encodeData [] 0x13#33 4 = .error .invalidInput := ⟨rfl, rfl, rfl⟩

theorem test_verify :
    verify (seqOf "10101101") 0x13#33 4 = .ok ⟨seqOf "0000", true⟩ ∧
    verify (seqOf "00101101") 0x13#33 4 = .ok ⟨seqOf "1011", false⟩ ∧
    verify (seqOf "101") 0x13#33 4 = .error .invalidInput := by decide

/-! ### Companion functions (E2, E7 to E9, R131) and the assembler (R62 to R64) -/

theorem test_injectErrors :
    injectErrors (seqOf "10101101") [2] = seqOf "10001101" ∧ injectErrors (seqOf "10101101") [0, 99, 0] = seqOf "00101101" ∧
    injectErrors (seqOf "10101101") [8] = seqOf "10101101" := by decide

theorem test_generateUndetectableVector :
    generateUndetectableVector 3 0x13#33 4 = .ok ⟨seqOf "10011000", true⟩ ∧
    generateUndetectableVector 3 0x13#33 33 = .error .invalidConfig := by decide

theorem test_hex :
    hexToBinary "b1d".toList = .ok (seqOf "101100011101") ∧ hexToBinary "G1".toList = .error .invalidInput ∧
    binaryToHex false (seqOf "11011") = .ok "1B".toList ∧ binaryToHex false (seqOf "00001111") = .ok "0F".toList ∧
    binaryToHex true (seqOf "00001111") = .ok "F".toList ∧ binaryToHex true (seqOf "0000") = .ok "0".toList ∧
    binaryToHex false [] = .ok [] ∧ binaryToHex false (seqOf "12") = .error .invalidInput := by decide

theorem test_binaryRepr : binaryRepr 0x25#33 5 = seqOf "100101" := by decide

theorem test_assembleText :
    assembleText "ENC 32, 0x104C11DB7 ; width 32".toList = some [0x204104C11DB7#48] ∧
    assembleText "VER CRC-5-ITU".toList = some [0x300A00000025#48] ∧
    assembleText "DIV 4, 0b10011".toList = some [0x100800000013#48] ∧
    assembleText "PUSH '2'".toList = some [0x400000000032#48] := by decide

theorem test_assembleText_pseudo :
    assembleText "PUSHS \"10\"".toList = some [0x400000000031#48, 0x400000000030#48] ∧
    assembleText "PUSHS \"\"".toList = some [] ∧ assembleText "PUSHB 1".toList = some [0x400000000031#48] ∧
    assembleText ".word 0x480000000030".toList = some [0x480000000030#48] ∧
    assembleText "PUSH 256".toList = none ∧ assembleText "DIV 64, 0x13".toList = none := by decide

/-- R62: a quoted character stands for its code, a comma and a semicolon too (log entry 10): `','` is 0x2C, `';'` 0x3B. -/
theorem test_assembleText_quoted :
    assembleText "DIV ',', 0x13".toList = some [0x105800000013#48] ∧
    assembleText "DIV 4, ','".toList = some [0x10080000002C#48] ∧ assembleText "PUSH ','".toList = some [0x40000000002C#48] ∧
    assembleText "PUSH ';' ; a comment".toList = some [0x40000000003B#48] := by decide

/-! ### What a host may read (R103, R174, R175) -/

/-- V6 rows 2, 9 and 10: the `DONE` of an operation in `DIV` mode, of a failing and of a passing `VER`. -/
theorem test_verdictOf :
    verdictOf? 0xD44100000000#48 = none ∧ verdictOf? 0xDC400000000D#48 = some .errorDetected ∧
    verdictOf? 0xDC4100000000#48 = some .noDetectableError := by decide

/-- E1's trace delivers its codeword; the trace of a symbol accepted and one refused (R96) delivers none. -/
theorem test_deliveredCodeword :
    deliveredCodeword? ((seqOf "10101101").map cwsymWord ++ [0xD8400000000D#48]) = some (seqOf "10101101") ∧
    deliveredCodeword? [0xC00000000031#48, 0xE80000078411#48] = none := by decide

/-! ### The ports (R31 to R34, R165) -/

/-- One edge moves a command in; the next takes the response it emitted (V7's `STAT` in `S0`). -/
theorem test_ports :
    clockEdge ⟨false, true, true, 0x700000000000#48, false, false, 0#48⟩ PortState.reset =
      .next ⟨idle [] [0xA00000000000#48], [0x700000000000#48], []⟩ ∧
    clockEdge ⟨false, false, false, 0#48, true, true, 0xA00000000000#48⟩
        ⟨idle [] [0xA00000000000#48], [0x700000000000#48], []⟩ =
      .next ⟨idle [] [], [0x700000000000#48], [0xA00000000000#48]⟩ ∧
    clockEdge ⟨true, true, false, 0#48, false, false, 0#48⟩ ⟨stateB [], [], []⟩ = .next PortState.reset :=
  ⟨rfl, rfl, rfl⟩

/-! ### Witnesses: what meets the hypotheses of each statement of Obligations.lean that has any

Where a statement's clauses are over a range, the operands stand at its ends: widths 1 and 32, opcodes 8 and 15, `CNT` at
`WIDTH`. -/

theorem running_inv {mode : Mode} {width poly reg cnt : Nat} {commands : List Word} (hm : mode ≠ .none)
    (hl : LegalConfig (BitVec.ofNat 6 width).toNat (BitVec.ofNat 33 poly))
    (hr : (BitVec.ofNat 34 reg).toNat < 2 ^ (BitVec.ofNat 6 width).toNat) (hc : (BitVec.ofNat 6 cnt).toNat ≤ 32) :
    (running mode width poly reg cnt commands).Inv :=
  ⟨⟨fun h => (nomatch (h : Phase.run = Phase.idle)), fun h => h.1⟩, fun _ => ⟨hm, hl, hr, hc⟩⟩

theorem idle_isS0 (commands responses : List Word) : (idle commands responses).isS0 := ⟨rfl, rfl, rfl, rfl, rfl, rfl⟩

theorem idle_inv (commands responses : List Word) : (idle commands responses).Inv :=
  ⟨⟨fun _ => idle_isS0 _ _, fun _ => rfl⟩, fun h => (nomatch (h : Phase.idle = Phase.run))⟩

theorem stateB_inv (commands : List Word) : (stateB commands).Inv :=
  running_inv (by decide) (by decide) (by decide) (by decide)

/-- Configurations at both ends of the range of widths are legal. -/
theorem witness_DivideIsPolynomialRemainder :
    LegalConfig 1 0b10#33 ∧ LegalConfig 1 0b11#33 ∧ LegalConfig 32 0x100000000#33 ∧ LegalConfig 32 0x1FFFFFFFF#33 := by
  decide

/-- Widths 1 and 32, a polynomial with bits above `W` among them; widths 0 and 33. -/
theorem witness_GeneratedVectorIsUndetectable :
    (1 ≤ 1 ∧ 1 ≤ 32 ∧ (0b111#33).getLsbD 1 = true) ∧ (1 ≤ 32 ∧ 32 ≤ 32 ∧ (0x104C11DB7#33).getLsbD 32 = true) ∧
    (0 = 0 ∨ 32 < 0) ∧ (33 = 0 ∨ 32 < 33) := by decide

theorem witness_StepKeepsTheControlInvariant :
    (running .enc 32 0x1FFFFFFFF 0xFFFFFFFF 32 [0x400000000031#48]).Inv ∧
    ∃ t, step (running .enc 32 0x1FFFFFFFF 0xFFFFFFFF 32 [0x400000000031#48]) = .next t :=
  ⟨running_inv (by decide) (by decide) (by decide) (by decide), _, rfl⟩

theorem witness_StepKeepsResponseKinds :
    (idle [0x700000000000#48] [0xC00000000031#48]).ResponsesLegal ∧
    ∃ t, step (idle [0x700000000000#48] [0xC00000000031#48]) = .next t := by
  refine ⟨fun r hr => ?_, _, rfl⟩
  have h : r = 0xC00000000031#48 := List.mem_singleton.mp hr
  subst h
  exact .inr (.inl rfl)

theorem witness_EveryWordCompletesAndAbortRecovers :
    (stateB [0x600000000000#48]).Inv ∧ (stateB [0x600000000000#48]).commands = 0x600000000000#48 :: [] :=
  ⟨stateB_inv _, rfl⟩

/-- Every command has a next state from `B`, the start commands by raising; from `S0` they open an operation. -/
theorem witness_CommandsChangeOnlyTheirFields :
    (∃ t, exec .nop (stateB []) = .next t) ∧ (∃ t, exec .stat (stateB []) = .next t) ∧
    (∃ t, exec .abort (stateB []) = .next t) ∧ (∃ t, exec .endOp (stateB []) = .next t) ∧
    (∃ t, exec (.push 0x31#8) (stateB []) = .next t) ∧ (∃ t, exec (.div 4#6 0x13#33) (stateB []) = .next t) ∧
    (∃ t, exec (.enc 4#6 0x13#33) State.reset = .next t) ∧ (∃ t, exec (.ver 4#6 0x13#33) State.reset = .next t) :=
  ⟨⟨_, rfl⟩, ⟨_, rfl⟩, ⟨_, rfl⟩, ⟨_, rfl⟩, ⟨_, rfl⟩, ⟨_, rfl⟩, ⟨_, rfl⟩, ⟨_, rfl⟩⟩

theorem witness_NothingSurvivesAnOperation :
    (idle [] []).isS0 ∧ (idle [0x500000000000#48] [0xE00000000542#48]).isS0 := ⟨idle_isS0 _ _, idle_isS0 _ _⟩

theorem witness_ModeIsTheLowOpcodeBits :
    (∃ t, exec (startInstr .div 4#6 0x13#33) State.reset = .next t ∧ t.phase = .run) ∧
    (∃ t, exec (startInstr .enc 1#6 0b11#33) State.reset = .next t ∧ t.phase = .run) ∧
    (∃ t, exec (startInstr .ver 32#6 0x104C11DB7#33) State.reset = .next t ∧ t.phase = .run) :=
  ⟨⟨_, rfl, rfl⟩, ⟨_, rfl, rfl⟩, ⟨_, rfl, rfl⟩⟩

theorem witness_StepExecutesTheDecodedCommand :
    (idle [0x100800000013#48] []).commands = 0x100800000013#48 :: [] ∧
    decode 0x100800000013#48 = .ok (.div 4#6 0x13#33) ∧ (idle [] []).commands = [] := ⟨rfl, rfl, rfl⟩

theorem witness_DecodeInvertsEncode : (Instr.ver 63#6 0x1FFFFFFFF#33).wellFormed = true := rfl

theorem witness_EncodeInvertsDecode : decode 0x207FFFFFFFFF#48 = .ok (.enc 63#6 0x1FFFFFFFF#33) := by decide

/-- Opcodes 8 and 15; the lowest and the highest bit of each format's reserved field. -/
theorem witness_ReservedEncodingsRaise :
    (∀ cmd, (stateB [cmd]).commands = cmd :: []) ∧
    8 ≤ ((0x800000000000#48).extractLsb' 44 4).toNat ∧ 8 ≤ ((0xFFFFFFFFFFFF#48).extractLsb' 44 4).toNat ∧
    ((0x108000000000#48).extractLsb' 44 4).toNat ∈ [1, 2, 3] ∧ (0x108000000000#48).extractLsb' 39 5 ≠ 0#5 ∧
    ((0x380000000000#48).extractLsb' 44 4).toNat ∈ [1, 2, 3] ∧ (0x380000000000#48).extractLsb' 39 5 ≠ 0#5 ∧
    ((0x400000000100#48).extractLsb' 44 4).toNat = 4 ∧ (0x400000000100#48).extractLsb' 8 36 ≠ 0#36 ∧
    ((0x480000000000#48).extractLsb' 44 4).toNat = 4 ∧ (0x480000000000#48).extractLsb' 8 36 ≠ 0#36 ∧
    ((0x000000000001#48).extractLsb' 44 4).toNat ∈ [0, 5, 6, 7] ∧ (0x000000000001#48).extractLsb' 0 44 ≠ 0#44 ∧
    ((0x780000000000#48).extractLsb' 44 4).toNat ∈ [0, 5, 6, 7] ∧ (0x780000000000#48).extractLsb' 0 44 ≠ 0#44 :=
  ⟨fun _ => rfl, by decide⟩

theorem witness_RemainderStringsAreFaithful :
    (0b0100#34).toNat < 2 ^ 4 ∧ remstr (0b0100#34) 4 = remstr (0b0100#34) 4 ∧ remstr (0b0100#34) 4 = seqOf "0100" := by
  decide

/-- Both sides of each limit (R62, R63, log entry 10), and lines with words. -/
theorem witness_AssemblerWordsAndLimits :
    (63 < 64 ∧ 63 ≤ 63) ∧ (2 ^ 33 - 1 < 2 ^ 33 ∧ 2 ^ 33 - 1 ≤ 2 ^ 33 - 1) ∧ (∃ c ∈ [0x30, 256], 255 < c) ∧
    (¬∃ c ∈ [0x30, 255], 255 < c) ∧ 2 ^ 48 ≤ 2 ^ 48 ∧ ¬2 ^ 48 ≤ 2 ^ 48 - 1 ∧
    assemble (.start .div 63 (2 ^ 33 - 1)) = some [0x107FFFFFFFFF#48] ∧
    assemble (.pushS [0x31, 0x30]) = some [0x400000000031#48, 0x400000000030#48] ∧
    ∀ v, AsmLine.pushS [0x31, 0x30] ≠ .word v := by
  refine ⟨by decide, by decide, by decide, by decide, by decide, by decide, by decide, by decide, ?_⟩
  intro v h
  cases h

theorem witness_RegisterNeverOverflows :
    LegalConfig 32 0x1FFFFFFFF#33 ∧ (0xFFFFFFFF#34).toNat < 2 ^ 32 ∧ LegalConfig 1 0b10#33 ∧ (1#34).toNat < 2 ^ 1 := by
  decide

theorem witness_LowBitsIgnoreHighPolynomialBits :
    4 ≤ 32 ∧ ∀ k < 4, (0x13#33).getLsbD k = (0x1FFFFFFE3#33).getLsbD k := by decide

theorem witness_DivideIsLinear :
    (seqOf "10101101").length = (seqOf "00100110").length ∧ divide (seqOf "10101101") 0x13#33 4 = .ok (seqOf "0000") ∧
    divide (seqOf "00100110") 0x13#33 4 = .ok (seqOf "0000") := by decide

theorem witness_ParityAndLastSymbolCodes :
    bitsOf? (seqOf "1011") = some [true, false, true, true] ∧ bitsOf? (seqOf "") = some [] ∧ 1 ≤ 1 ∧ 32 ≤ 32 := by decide

theorem witness_StartCommandsOpenTheOperation :
    State.reset.phase = .idle ∧ LegalConfig (32#6).toNat 0x104C11DB7#33 ∧ LegalConfig (1#6).toNat 0b10#33 := by decide

/-- Widths 0, 33 and 63; malformed and legal polynomials at widths 1, 31 and 32. -/
theorem witness_ConfigurationCheckInOrder :
    State.reset.isS0 ∧ 32 < (33#6).toNat ∧ 32 < (63#6).toNat ∧
    (1 ≤ (32#6).toNat ∧ (32#6).toNat ≤ 32 ∧ (0x04C11DB7#33).getLsbD (32#6).toNat = false) ∧
    (1 ≤ (31#6).toNat ∧ (31#6).toNat ≤ 32 ∧ ∃ k, (31#6).toNat < k ∧ k < 33 ∧ (0x180000000#33).getLsbD k = true) ∧
    (1 ≤ (1#6).toNat ∧ (1#6).toNat ≤ 32 ∧ ¬((0b10#33).getLsbD (1#6).toNat = false ∨
      ∃ k, (1#6).toNat < k ∧ k < 33 ∧ (0b10#33).getLsbD k = true)) ∧
    (1 ≤ (32#6).toNat ∧ (32#6).toNat ≤ 32 ∧ ¬((0x100000000#33).getLsbD (32#6).toNat = false ∨
      ∃ k, (32#6).toNat < k ∧ k < 33 ∧ (0x100000000#33).getLsbD k = true)) := by
  refine ⟨idle_isS0 _ _, by decide, by decide, by decide, ⟨by decide, by decide, 32, by decide⟩, ⟨by decide, by decide, ?_⟩,
    ⟨by decide, by decide, ?_⟩⟩
  · rintro (h | ⟨k, h1, h2, h3⟩)
    · exact absurd h (by decide)
    · revert h3; interval_cases k <;> first | decide | (simp at h1)
  · rintro (h | ⟨k, h1, h2, -⟩)
    · exact absurd h (by decide)
    · have : (32#6).toNat = 32 := rfl
      omega

theorem witness_PushAcceptsABinarySymbol :
    (running .ver 32 0x1FFFFFFFF 0xFFFFFFFF 32 []).phase = .run ∧ 0x31#8 = (if true then 0x31#8 else 0x30#8) ∧
    0x30#8 = (if false then 0x31#8 else 0x30#8) := by decide

/-- A state for each of the three clauses, `CNT` at the boundary of its check, width 32 and width 1. -/
theorem witness_EndReportsTheRemainder :
    ((running .div 32 0x1FFFFFFFF 0xFFFFFFFF 0 []).Inv ∧ (running .div 32 0x1FFFFFFFF 0xFFFFFFFF 0 []).phase = .run ∧
      (running .div 32 0x1FFFFFFFF 0xFFFFFFFF 0 []).mode = .div) ∧
    ((running .ver 32 0x1FFFFFFFF 0xFFFFFFFF 32 []).Inv ∧ (running .ver 32 0x1FFFFFFFF 0xFFFFFFFF 32 []).phase = .run ∧
      (running .ver 32 0x1FFFFFFFF 0xFFFFFFFF 32 []).mode = .ver ∧
      (running .ver 32 0x1FFFFFFFF 0xFFFFFFFF 32 []).width.toNat ≤
        (running .ver 32 0x1FFFFFFFF 0xFFFFFFFF 32 []).cnt.toNat) ∧
    ((running .enc 1 0b11 1 1 []).Inv ∧ (running .enc 1 0b11 1 1 []).phase = .run ∧
      (running .enc 1 0b11 1 1 []).mode = .enc ∧ (running .enc 1 0b11 1 1 []).cnt ≠ 0#6) :=
  ⟨⟨running_inv (by decide) (by decide) (by decide) (by decide), rfl, rfl⟩,
    ⟨running_inv (by decide) (by decide) (by decide) (by decide), rfl, rfl, by decide⟩,
    ⟨running_inv (by decide) (by decide) (by decide) (by decide), rfl, rfl, by decide⟩⟩

/-- The body of P4's first operation: symbols with `STAT` and `NOP` between. -/
def body : List Instr := [.push 0x31#8, .push 0x30#8, .stat, .nop, .push 0x31#8, .push 0x30#8]

theorem witness_CommandsComputeDivide :
    State.reset.isS0 ∧ LegalConfig (4#6).toNat 0x13#33 ∧ (∀ i ∈ body, i.isBody = true) ∧
    bitsOf? (symbolsOf body) = some [true, false, true, false] := ⟨idle_isS0 _ _, by decide, by decide, by decide⟩

/-- A `PUSH` in `RUN` (V5 row 2), a start command in `IDLE`, and no word. -/
theorem witness_StepExtendsTheDivision :
    (running .div 4 0x13 0x5 3 [0x400000000031#48]).Inv ∧
    (running .div 4 0x13 0x5 3 [0x400000000031#48]).Tracks [true, false, true] ∧
    step (running .div 4 0x13 0x5 3 [0x400000000031#48]) = .next (running .div 4 0x13 0xB 4 []) ∧
    bitsAfter (running .div 4 0x13 0x5 3 [0x400000000031#48]) [true, false, true] = [true, false, true, true] ∧
    (idle [0x100800000013#48] []).Inv ∧ (idle [0x100800000013#48] []).Tracks [] ∧
    step (idle [0x100800000013#48] []) = .next (running .div 4 0x13 0 0 []) ∧
    step (running .div 4 0x13 0x5 3 []) = .next (running .div 4 0x13 0x5 3 []) :=
  ⟨running_inv (by decide) (by decide) (by decide) (by decide), fun _ => ⟨by decide, by decide⟩, rfl, rfl, idle_inv _ _,
    fun h => (nomatch (h : Phase.idle = Phase.run)), rfl, rfl⟩

theorem witness_DivOperationComputesDivide :
    State.reset.isS0 ∧ LegalConfig (32#6).toNat 0x104C11DB7#33 ∧ (∀ i ∈ ([] : List Instr), i.isBody = true) ∧
    bitsOf? (symbolsOf []) = some [] := ⟨idle_isS0 _ _, by decide, by decide, by decide⟩

theorem witness_CodewordIsSystematic :
    encodeData (seqOf "1010") 0x13#33 4 = .ok ⟨seqOf "1101", seqOf "10101101"⟩ := rfl

theorem witness_EncOperationComputesEncode :
    State.reset.isS0 ∧ LegalConfig (4#6).toNat 0x13#33 ∧ (∀ i ∈ body, i.isBody = true) ∧
    encodeData (symbolsOf body) 0x13#33 (4#6).toNat = .ok ⟨seqOf "1101", seqOf "10101101"⟩ :=
  ⟨idle_isS0 _ _, by decide, by decide, rfl⟩

theorem witness_RoundTripIsValid :
    (1 ≤ 32 ∧ 32 ≤ 32 ∧ (0x104C11DB7#33).getLsbD 32 = true) ∧ (1 ≤ 1 ∧ 1 ≤ 32 ∧ (0b111#33).getLsbD 1 = true) ∧
    seqOf "0" ≠ [] ∧ (bitsOf? (seqOf "0")).isSome = true := by decide

/-- `ENC 1, 0b11; PUSHS "1"; END` emits the codeword "11" and `DONE` (R98: the polynomial itself). -/
theorem witness_EncodedSymbolsVerifyOnTheCore :
    State.reset.isS0 ∧ LegalConfig (1#6).toNat 0b11#33 ∧ (∀ i ∈ pushes "1", i.isBody = true) ∧ StartKind.ver ≠ .enc ∧
    ∃ t new, runWords (operationWords .enc 1#6 0b11#33 (pushes "1")) State.reset = .next t ∧
      t.responses = State.reset.responses ++ new ∧ ∃ r ∈ new, rspKind r = kindDone :=
  ⟨idle_isS0 _ _, by decide, by decide, by decide, _, [0xC00000000031#48, 0xC00000000031#48, 0xD81000000001#48], rfl, rfl,
    0xD81000000001#48, by decide, by decide⟩

/-- A non-binary symbol, and no symbol at all. -/
theorem witness_FailedEncodingDeliversNoResult :
    State.reset.isS0 ∧ LegalConfig (4#6).toNat 0x13#33 ∧ (∀ i ∈ pushes "1x", i.isBody = true) ∧
    encodeData (symbolsOf (pushes "1x")) 0x13#33 (4#6).toNat = .error .invalidInput ∧
    encodeData (symbolsOf []) 0x13#33 (4#6).toNat = .error .invalidInput :=
  ⟨idle_isS0 _ _, by decide, by decide, rfl, rfl⟩

/-- Three symbols at width 4, and four. -/
theorem witness_VerOperationComputesVerify :
    State.reset.isS0 ∧ LegalConfig (4#6).toNat 0x13#33 ∧
    ((∀ i ∈ pushes "110", i.isBody = true) ∧ bitsOf? (symbolsOf (pushes "110")) = some [true, true, false] ∧
      (symbolsOf (pushes "110")).length < (4#6).toNat) ∧
    ((∀ i ∈ pushes "1101", i.isBody = true) ∧ bitsOf? (symbolsOf (pushes "1101")) = some [true, true, false, true] ∧
      (4#6).toNat ≤ (symbolsOf (pushes "1101")).length) := ⟨idle_isS0 _ _, by decide, by decide, by decide⟩

theorem witness_VerifyLengthBoundary :
    LegalConfig 4 0x13#33 ∧ bitsOf? (seqOf "1101") = some [true, true, false, true] ∧ (seqOf "1101").length = 4 ∧
    bitsOf? (seqOf "110") = some [true, true, false] ∧ (seqOf "110").length < 4 ∧
    encodeData (seqOf "1") 0x13#33 4 = .ok ⟨seqOf "0011", seqOf "10011"⟩ := by decide

theorem witness_SingleBitErrorsAreDetected :
    LegalConfig 4 0x13#33 ∧ (∃ j < 4, (0x13#33).getLsbD j = true) ∧
    verify (seqOf "10101101") 0x13#33 4 = .ok ⟨zeros 4, true⟩ ∧ 7 < (seqOf "10101101").length := by decide

theorem witness_MultiplesOfTheGeneratorPassUndetected :
    (seqOf "10101101").length = (seqOf "00100110").length ∧ divide (seqOf "00100110") 0x13#33 4 = .ok (zeros 4) ∧
    verify (seqOf "10101101") 0x13#33 4 = .ok ⟨seqOf "0000", true⟩ ∧
    divide (seqOf "10101101") 0x13#33 4 = .ok (seqOf "0000") := by decide

theorem witness_StatReportsTheControlState :
    (∀ cmd, (stateB [cmd]).commands = cmd :: []) ∧ (0x700000000000#48).extractLsb' 44 4 = 0x7#4 ∧
    (0x700000000000#48).extractLsb' 0 44 = 0#44 ∧ (0x700000000040#48).extractLsb' 44 4 = 0x7#4 ∧
    (0x700000000040#48).extractLsb' 0 44 ≠ 0#44 ∧ (idle [0x700000000000#48] []).isS0 :=
  ⟨fun _ => rfl, by decide, by decide, by decide, by decide, idle_isS0 _ _⟩

theorem witness_NopAndAbortWords :
    (∀ cmd, (stateB [cmd]).commands = cmd :: []) ∧ (0x000000000001#48).extractLsb' 44 4 = 0x0#4 ∧
    (0x600000000000#48).extractLsb' 44 4 = 0x6#4 := ⟨fun _ => rfl, by decide, by decide⟩

theorem witness_NopAndStatAreTransparent :
    ∃ t, runWords ([Instr.stat, .nop, .div 4#6 0x13#33].map encode) State.reset = .next t ∧
      t.responses = State.reset.responses ++ [0xA00000000000#48] := ⟨_, rfl, rfl⟩

theorem witness_InjectorAddsTheErrorPattern :
    bitsOf? (seqOf "10101101") = some [true, false, true, false, true, true, false, true] ∧
    7 < (seqOf "10101101").length ∧ divide (seqOf "10101101") 0x13#33 4 = .ok (seqOf "0000") ∧
    divide (errorPattern (seqOf "10101101").length [0, 4]) 0x13#33 4 = .ok (seqOf "0011") ∧
    4 ≤ (seqOf "10101101").length := by decide

theorem witness_InjectorIsAnInvolution :
    (bitsOf? (seqOf "10101101")).isSome = true ∧
    ∀ k < (seqOf "10101101").length, k ∈ [2, 2, 8] ↔ k ∈ [2, 99] := by decide

theorem witness_HexRoundTrip : hexToBinary "0f".toList = .ok (seqOf "00001111") := by decide

/-- A word and a state for each of the ten causes, and one that raises nothing. -/
theorem witness_FirstApplicableCauseIsRaised :
    (∀ cmd, (stateB [cmd]).Inv ∧ (stateB [cmd]).commands = cmd :: []) ∧ (∀ cmd, (idle [cmd] []).Inv) ∧
    firstCause 0x800000000000#48 (stateB []) = some .reservedOpcode ∧
    firstCause 0x108000000000#48 (stateB []) = some .reservedField ∧
    firstCause 0x100000000000#48 (stateB []) = some .notIdle ∧
    firstCause 0x400000000078#48 (idle [] []) = some .notRunning ∧
    firstCause 0x200000000000#48 (idle [] []) = some .widthZero ∧
    firstCause 0x207FFFFFFFFF#48 (idle [] []) = some .widthTooLarge ∧
    firstCause 0x304004C11DB7#48 (idle [] []) = some .polyMalformed ∧
    firstCause 0x400000000078#48 (stateB []) = some .nonbinarySymbol ∧
    firstCause 0x500000000000#48 (running .enc 4 0x13 0 0 []) = some .emptyData ∧
    firstCause 0x500000000000#48 (running .ver 4 0x13 0 3 []) = some .shortCodeword ∧
    firstCause 0x500000000000#48 (running .ver 4 0x13 0 4 []) = none :=
  ⟨fun _ => ⟨stateB_inv _, rfl⟩, fun _ => idle_inv _ _, by decide⟩

theorem witness_IllegalSequenceNeedsOnlyThePhase :
    (stateB []).phase = .run ∧ State.reset.phase = .idle := ⟨rfl, rfl⟩

/-- A command, a reserved word and no word in `RUN`; a start word in `IDLE`; a reset edge. -/
theorem witness_PhaseTransitionsAreTheTable :
    (∀ cmd, (stateB [cmd]).Inv ∧ (stateB [cmd]).commands = cmd :: []) ∧
    (∃ t, step (stateB [0x400000000030#48]) = .next t ∧ t.phase = .run) ∧
    (∃ t, step (stateB [0x800000000000#48]) = .next t ∧ t.phase = .idle) ∧
    (∃ t, step (stateB []) = .next t) ∧ (idle [0x200800000013#48] []).Inv ∧
    (∃ t, step (idle [0x200800000013#48] []) = .next t ∧ t.phase = .run) ∧
    ∃ q, clockEdge ⟨true, false, false, 0#48, false, false, 0#48⟩ ⟨stateB [], [], []⟩ = .next q :=
  ⟨fun _ => ⟨stateB_inv _, rfl⟩, ⟨_, rfl, rfl⟩, ⟨_, rfl, rfl⟩, ⟨_, rfl⟩, idle_inv _ _, ⟨_, rfl, rfl⟩, ⟨_, rfl⟩⟩

theorem witness_ResponseCounts :
    (stateB []).Inv ∧ (∃ t, exec .endOp (stateB []) = .next t) ∧ ∃ t, exec (.ver 0#6 0#33) State.reset = .next t :=
  ⟨stateB_inv _, ⟨_, rfl⟩, ⟨_, rfl⟩⟩

/-- An illegal configuration; a non-binary symbol; no symbol; one symbol too few. -/
theorem witness_WellFormedOperationErrors :
    State.reset.isS0 ∧ (∀ i ∈ Instr.stat :: pushes "1x0", i.isBody = true) ∧ ¬LegalConfig (33#6).toNat 0x13#33 ∧
    LegalConfig (4#6).toNat 0x13#33 ∧
    (symbolsOf (pushes "1x0") = seqOf "1" ++ 0x78#8 :: seqOf "0" ∧ (bitsOf? (seqOf "1")).isSome = true ∧
      0x78#8 ≠ 0x30#8 ∧ 0x78#8 ≠ 0x31#8) ∧
    ((∀ i ∈ [Instr.nop], i.isBody = true) ∧ symbolsOf [Instr.nop] = []) ∧
    ((bitsOf? (symbolsOf (pushes "110"))).isSome = true ∧ (symbolsOf (pushes "110")).length < (4#6).toNat) :=
  ⟨idle_isS0 _ _, by decide, by decide, by decide, by decide, by decide, by decide⟩

theorem witness_QueuedCommandsEchoNotRunning :
    State.reset.isS0 ∧ ∀ i ∈ [Instr.push 0x31#8, .endOp], i = .endOp ∨ ∃ sym, i = .push sym := by
  refine ⟨idle_isS0 _ _, ?_⟩
  intro i hi
  simp only [List.mem_cons, List.not_mem_nil, or_false] at hi
  rcases hi with rfl | rfl
  · exact .inr ⟨_, rfl⟩
  · exact .inl rfl

theorem witness_ResetEdgeDropsEverything :
    (⟨true, true, false, 0x700000000000#48, false, true, 0#48⟩ : Edge).rst = true ∧
    (⟨true, true, false, 0x700000000000#48, false, true, 0#48⟩ : Edge).legal
      ⟨idle [] [0xE00000000542#48], [0x500000000000#48], []⟩ = true := by decide

/-- Right after reset with a command presented; and after it, with its response on `rsp_data`. -/
theorem witness_PortsDeliverTheRun :
    (PortState.reset.Agrees ∧
      (⟨false, true, true, 0x500000000000#48, false, false, 0#48⟩ : Edge).legal PortState.reset = true) ∧
    (PortState.Agrees ⟨idle [] [0xE00000000542#48], [0x500000000000#48], []⟩ ∧
      (⟨false, true, true, 0x700000000000#48, true, true, 0xE00000000542#48⟩ : Edge).legal
        ⟨idle [] [0xE00000000542#48], [0x500000000000#48], []⟩ = true) :=
  ⟨⟨⟨rfl, rfl⟩, by decide⟩, ⟨⟨rfl, rfl⟩, by decide⟩⟩

/-- E2's codeword; received as sent, and with one bit flipped. -/
theorem witness_ZeroMeansNoDetectableError :
    LegalConfig (4#6).toNat 0x13#33 ∧ verify (seqOf "10101101") 0x13#33 (4#6).toNat = .ok ⟨zeros (4#6).toNat, true⟩ ∧
    State.reset.isS0 ∧
    ((∀ i ∈ pushes "10101101", i.isBody = true) ∧ (bitsOf? (symbolsOf (pushes "10101101"))).isSome = true ∧
      (symbolsOf (pushes "10101101")).length = (seqOf "10101101").length) ∧
    ((∀ i ∈ pushes "00101101", i.isBody = true) ∧ (bitsOf? (symbolsOf (pushes "00101101"))).isSome = true ∧
      (symbolsOf (pushes "00101101")).length = (seqOf "10101101").length) ∧
    (4#6).toNat < (seqOf "10101101").length :=
  ⟨by decide, by decide, idle_isS0 _ _, by decide, by decide, by decide⟩

theorem witness_CodewordIsCompleteOnlyWithDone :
    State.reset.isS0 ∧ LegalConfig (4#6).toNat 0x13#33 ∧ (∀ i ∈ body, i.isBody = true) ∧
    encodeData (symbolsOf body) 0x13#33 (4#6).toNat = .ok ⟨seqOf "1101", seqOf "10101101"⟩ :=
  ⟨idle_isS0 _ _, by decide, by decide, rfl⟩

end Sys2Proof.Tests
end

/-! Proofs, family "State and reset": the laws of the decoder, of the division step and of a step of the core that the
statements of 10_state.md need, then the statements. -/

namespace Sys2Proof

/-! ### The decoder -/

theorem decodeZ_eq_ok_iff {i j : Instr} {cmd : Word} : decodeZ i cmd = .ok j ↔ rsvZ cmd = 0#44 ∧ i = j := by
  unfold decodeZ
  split <;> simp [*]

theorem decodeS_eq_ok_iff {make : Width → Poly → Instr} {i : Instr} {cmd : Word} :
    decodeS make cmd = .ok i ↔ rsvS cmd = 0#5 ∧ make (widthField cmd) (polyField cmd) = i := by
  unfold decodeS
  split <;> simp [*]

theorem decodeP_eq_ok_iff {make : Symbol → Instr} {i : Instr} {cmd : Word} :
    decodeP make cmd = .ok i ↔ rsvP cmd = 0#36 ∧ make (symField cmd) = i := by
  unfold decodeP
  split <;> simp [*]

/-- A word of format P from its fields (R48), as `eq_fieldsS` for format S. -/
theorem eq_fieldsP (cmd : Word) : cmd = opField cmd ++ rsvP cmd ++ symField cmd := by
  apply BitVec.eq_of_getLsbD_eq
  intro i hi
  simp only [opField, rsvP, symField, BitVec.getLsbD_append, BitVec.getLsbD_extractLsb']
  split
  · simp [*]
  · split
    · simp [*]; congr 1; omega
    · rw [decide_eq_true (by omega), Bool.true_and]; congr 1; omega

/-- The one word that decodes to `PUSH sym` (R48, R60). -/
theorem eq_encode_push_of_decode {cmd : Word} {sym : Symbol} (h : decode cmd = .ok (.push sym)) :
    cmd = encode (.push sym) := by
  unfold decode at h
  split at h
  case h_5 hop =>
    obtain ⟨hrsv, hsym⟩ := decodeP_eq_ok_iff.mp h
    have hop' : opField cmd = 0x4#4 := BitVec.eq_of_toNat_eq hop
    have hcmd := eq_fieldsP cmd
    rw [hop', hrsv, Instr.push.inj hsym] at hcmd
    exact hcmd
  all_goals simp [decodeZ_eq_ok_iff, decodeS_eq_ok_iff] at h

end Sys2Proof

namespace Sys2Proof.Machine

/-! ### What a command and a step can do

`Effect` lists the next states of `exec`, with their guards; every invariant below is a case analysis over it. -/

/-- The next states a command can answer (R27): `NOP` and `STAT` keep the fields; a raise, `END` and `ABORT` go to `S0`,
only the last without a response; a start command opens an operation; a `PUSH` is accepted. -/
inductive Effect (s : State) : Instr → State → Prop
  | nop : Effect s .nop s
  | stat : Effect s .stat (emit (statusWord s.mode s.width s.phase s.cnt) s)
  | abort : Effect s .abort (toIdle s)
  | closed (i : Instr) (new : List Word) (hi : i.isTransparent = false) (ha : i ≠ .abort) :
      Effect s i (toIdle (emitAll new s))
  | opened (kind : StartKind) (w : Width) (p : Poly) (hp : s.phase = .idle) (hc : LegalConfig w.toNat p) :
      Effect s (startInstr kind w p) (openOperation (startMode kind) w p s)
  | accepted (sym : Symbol) (b : Bool) (new : List Word) (hp : s.phase = .run) (hb : bitOf? sym = some b) :
      Effect s (.push sym) (emitAll new (acceptBit b s))

@[simp] theorem emitAll_nil (s : State) : emitAll [] s = s := by simp [emitAll]

theorem emit_emitAll (rsp : Word) (rsps : List Word) (s : State) :
    emit rsp (emitAll rsps s) = emitAll (rsps ++ [rsp]) s := by
  simp [emit, emitAll]

/-- Every end of an operation in `RUN` is a return to `S0` after some responses (R78, R94, R102). -/
theorem endDivide_eq (s : State) : ∃ new, endDivide s = toIdle (emitAll new s) := ⟨_, rfl⟩

theorem endEncode_eq (s : State) : ∃ new, endEncode s = toIdle (emitAll new s) := by
  unfold endEncode
  split
  · exact ⟨_, rfl⟩
  · exact ⟨_, congrArg toIdle (emit_emitAll _ _ s)⟩

theorem endVerify_eq (s : State) : ∃ new, endVerify s = toIdle (emitAll new s) := by
  unfold endVerify
  split <;> exact ⟨_, rfl⟩

theorem start_effect (kind : StartKind) (op : Opcode) (w : Width) (p : Poly) (s : State) :
    Effect s (startInstr kind w p) (start op (startMode kind) w p s) := by
  have hi : (startInstr kind w p).isTransparent = false := by cases kind <;> rfl
  have ha : startInstr kind w p ≠ .abort := by cases kind <;> nofun
  obtain ⟨-, h⟩ | ⟨-, cause, -, h⟩ | ⟨hp, hc, h⟩ := start_cases op (startMode kind) w p s
  · exact h ▸ .closed _ [_] hi ha
  · exact h ▸ .closed _ [_] hi ha
  · exact h ▸ .opened kind w p hp hc

/-- A start command is `start` with its mode (R75, R91, R101). -/
theorem exec_startInstr (kind : StartKind) (w : Width) (p : Poly) (s : State) :
    ∃ op, exec (startInstr kind w p) s = .next (start op (startMode kind) w p s) := by
  cases kind <;> exact ⟨_, rfl⟩

theorem execPush_effect {sym : Symbol} {s t : State} (h : execPush sym s = .next t) : Effect s (.push sym) t := by
  obtain ⟨-, h'⟩ | ⟨-, -, h'⟩ | ⟨hp, b, hb, h'⟩ := execPush_cases sym s <;> cases h'.symm.trans h
  · exact .closed _ [_] rfl nofun
  · exact .closed _ [_] rfl nofun
  · split
    · exact .accepted sym b [_] hp hb
    · simpa using Effect.accepted sym b [] hp hb

theorem execEnd_effect {s t : State} (h : execEnd s = .next t) : Effect s .endOp t := by
  have closed : (∃ new, t = toIdle (emitAll new s)) → Effect s .endOp t := by
    rintro ⟨new, rfl⟩
    exact .closed _ new rfl nofun
  obtain ⟨-, h'⟩ | ⟨-, -, h'⟩ | ⟨-, -, h'⟩ | ⟨-, -, h'⟩ | ⟨-, -, h'⟩ := execEnd_cases s <;> cases h'.symm.trans h
  · exact closed ⟨_, rfl⟩
  · exact closed (endDivide_eq s)
  · exact closed (endEncode_eq s)
  · exact closed (endVerify_eq s)

/-- Everything a command that answers a next state can have done. -/
theorem exec_effect {i : Instr} {s t : State} (h : exec i s = .next t) : Effect s i t := by
  cases i with
  | nop => cases h; exact .nop
  | div w p => cases h; exact start_effect .div 0x1#4 w p s
  | enc w p => cases h; exact start_effect .enc 0x2#4 w p s
  | ver w p => cases h; exact start_effect .ver 0x3#4 w p s
  | push sym => exact execPush_effect h
  | endOp => exact execEnd_effect h
  | abort => cases h; exact .abort
  | stat => cases h; exact .stat

/-- Everything a step that answers a next state can have done: nothing without a word; else the effect of the command the
word decodes to, or the raise of a word that is no command (R32, R58). -/
theorem step_cases {s t : State} (h : step s = .next t) :
    (s.commands = [] ∧ t = s) ∨
    ∃ cmd rest, s.commands = cmd :: rest ∧
      ((∃ i, decode cmd = .ok i ∧ Effect { s with commands := rest } i t) ∨
        ∃ e, t = raise (opField cmd) (decodeCause e) 0#8 { s with commands := rest }) := by
  cases hc : s.commands with
  | nil =>
    rw [step_nil hc] at h
    cases h
    exact .inl ⟨rfl, rfl⟩
  | cons cmd rest =>
    rw [step_cons hc] at h
    refine .inr ⟨cmd, rest, rfl, ?_⟩
    cases hd : decode cmd with
    | ok i =>
      rw [acceptWord_of_decode hd] at h
      exact .inl ⟨i, rfl, exec_effect h⟩
    | error e =>
      rw [acceptWord_of_error hd] at h
      cases h
      exact .inr ⟨e, rfl⟩

/-! ### The division step stays below `2^W` (R73) -/

/-- A value lies below `2^W` exactly if none of its bits from `W` on is set. -/
theorem toNat_lt_two_pow_iff {n : Nat} (v : BitVec n) (W : Nat) :
    v.toNat < 2 ^ W ↔ ∀ i, W ≤ i → v.getLsbD i = false :=
  ⟨fun h _ hi => Nat.testBit_lt_two_pow (h.trans_le (Nat.pow_le_pow_right Nat.two_pos hi)),
    Nat.lt_pow_two_of_testBit v.toNat⟩

/-- The bits of a legal polynomial above its leading bit are zero (R144). -/
theorem LegalConfig.getLsbD_of_lt {W : Nat} {p : Poly} (hc : LegalConfig W p) {i : Nat} (hi : W < i) :
    p.getLsbD i = false := by
  obtain ⟨-, -, -, hz⟩ := hc
  have h := congrArg (fun v : Poly => v.getLsbD (i - (W + 1))) hz
  rw [BitVec.getLsbD_ushiftRight, show W + 1 + (i - (W + 1)) = i by omega] at h
  simpa using h

theorem lfsrStep_lt {r : Reg} {W : Nat} {p : Poly} (b : Bool) (hc : LegalConfig W p) (hr : r.toNat < 2 ^ W) :
    (lfsrStep r b W p).toNat < 2 ^ W := by
  have ⟨hW, hW', hlead, _⟩ := hc
  rw [toNat_lt_two_pow_iff] at hr ⊢
  intro i hi
  -- above bit `W` the shifted register has only bits of `r` from `W` on
  have hshift : ∀ j, W < j → ((r <<< 1) ||| (BitVec.ofBool b).setWidth 34).getLsbD j = false := by
    intro j hj
    have hrj : r.getLsbD (j - 1) = false := hr (j - 1) (by omega)
    simp [hrj]; omega
  simp only [lfsrStep]
  obtain rfl | hlt := Nat.eq_or_lt_of_le hi
  · -- bit `W` is either clear or cancelled by the polynomial's leading bit
    split
    case isTrue ht =>
      have hp : (p.setWidth 34).getLsbD W = true := by simp [hlead]; omega
      rw [BitVec.getLsbD_xor, ht, hp]; rfl
    case isFalse ht => simpa using ht
  · split
    · rw [BitVec.getLsbD_xor, hshift i hlt, BitVec.getLsbD_setWidth, hc.getLsbD_of_lt hlt]; simp
    · exact hshift i hlt

theorem shiftIn_lt {W : Nat} {p : Poly} (hc : LegalConfig W p) (bits : List Bool) {r : Reg} (hr : r.toNat < 2 ^ W) :
    (shiftIn r bits W p).toNat < 2 ^ W := by
  induction bits generalizing r with
  | nil => exact hr
  | cons b bits ih => exact ih (lfsrStep_lt b hc hr)

theorem divideBits_lt {W : Nat} {p : Poly} (hc : LegalConfig W p) (bits : List Bool) :
    (divideBits bits p W).toNat < 2 ^ W :=
  shiftIn_lt hc bits (Nat.two_pow_pos W)

/-- One more symbol is one more division step (R71). -/
theorem divideBits_concat (bits : List Bool) (b : Bool) (p : Poly) (W : Nat) :
    divideBits (bits ++ [b]) p W = lfsrStep (divideBits bits p W) b W p :=
  shiftIn_append 0#34 bits [b] W p

/-- `divide` of a binary sequence under a legal configuration (R71). -/
theorem divide_map_symOf {W : Nat} {p : Poly} (hc : LegalConfig W p) (bits : List Bool) :
    divide (bits.map symOf) p W = .ok (remstr (divideBits bits p W) W) := by
  obtain ⟨hlo, hhi, -, -⟩ := hc
  have hW : ¬(W = 0 ∨ Config.wmax < W) := by unfold Config.wmax; omega
  rw [divide, bitsOf?_map_symOf]
  exact if_neg hW

/-- `remstr` determines the value below `2^W` (R37). -/
theorem remstr_injOn {n W : Nat} {v v' : BitVec n} (hv : v.toNat < 2 ^ W) (hv' : v'.toNat < 2 ^ W)
    (h : remstr v W = remstr v' W) : v = v' := by
  rw [toNat_lt_two_pow_iff] at hv hv'
  apply BitVec.eq_of_getLsbD_eq
  intro i _
  by_cases hi : i < W
  · have hk := List.map_inj_left.mp h (W - 1 - i) (List.mem_range.mpr (by omega))
    rw [show W - 1 - (W - 1 - i) = i by omega] at hk
    exact symOf_injective hk
  · rw [hv i (by omega), hv' i (by omega)]

/-- The saturating counter counts `min(n, 32)` symbols (R21). -/
theorem countNext_toNat (c : Count) : (countNext c).toNat = min (c.toNat + 1) 32 := by
  unfold countNext Config.cntSat
  rw [BitVec.toNat_ofNat]
  omega

/-! ### The control invariant (R28 items 1 and 2) -/

theorem toIdle_isS0 (s : State) : (toIdle s).isS0 := ⟨rfl, rfl, rfl, rfl, rfl, rfl⟩

theorem State.reset_isS0 : State.reset.isS0 := ⟨rfl, rfl, rfl, rfl, rfl, rfl⟩

theorem State.inv_of_isS0 {s : State} (h : s.isS0) : s.Inv := by
  refine ⟨iff_of_true h.1 h, fun hr => ?_⟩
  cases h.1.symm.trans hr

/-- A state with an operation open meets the invariant as soon as it meets item 2. -/
theorem State.inv_of_run {s : State} (hp : s.phase = .run) (hm : s.mode ≠ .none) (hc : LegalConfig s.width.toNat s.poly)
    (hr : s.reg.toNat < 2 ^ s.width.toNat) (hn : s.cnt.toNat ≤ 32) : s.Inv := by
  refine ⟨?_, fun _ => ⟨hm, hc, hr, hn⟩⟩
  simp [hp]

theorem startMode_ne_none (kind : StartKind) : startMode kind ≠ .none := by cases kind <;> nofun

theorem openOperation_inv (kind : StartKind) {w : Width} {p : Poly} (hc : LegalConfig w.toNat p) (s : State) :
    (openOperation (startMode kind) w p s).Inv :=
  State.inv_of_run rfl (startMode_ne_none kind) hc (Nat.two_pow_pos _) (Nat.zero_le _)

theorem acceptBit_inv (b : Bool) {s : State} (hs : s.Inv) (hp : s.phase = .run) : (acceptBit b s).Inv := by
  obtain ⟨hm, hc, hr, -⟩ := hs.2 hp
  refine State.inv_of_run hp hm hc (lfsrStep_lt b hc hr) ?_
  rw [acceptBit_cnt, countNext_toNat]
  omega

/-- Every command keeps the invariant. It does not mention the channels, so emitting keeps it by definition. -/
theorem Effect.inv {s t : State} {i : Instr} (h : Effect s i t) (hs : s.Inv) : t.Inv := by
  cases h with
  | nop => exact hs
  | stat => exact hs
  | abort => exact State.inv_of_isS0 (toIdle_isS0 s)
  | closed => exact State.inv_of_isS0 (toIdle_isS0 _)
  | opened kind _ _ _ hc => exact openOperation_inv kind hc s
  | accepted _ b _ hp => exact acceptBit_inv b hs hp

theorem step_inv {s t : State} (hs : s.Inv) (h : step s = .next t) : t.Inv := by
  obtain ⟨-, rfl⟩ | ⟨_, _, -, ⟨_, -, heff⟩ | ⟨_, rfl⟩⟩ := step_cases h
  · exact hs
  · exact heff.inv hs
  · exact State.inv_of_isS0 (toIdle_isS0 _)

/-! ### The tracked division (R28 item 3) -/

/-- Under the invariant, tracking a sequence means that the register itself, not only its string, is the division's. -/
theorem State.tracks_iff {s : State} (hs : s.Inv) (hp : s.phase = .run) (bits : List Bool) :
    s.Tracks bits ↔ s.reg = divideBits bits s.poly s.width.toNat ∧ s.cnt.toNat = min bits.length 32 := by
  obtain ⟨-, hc, hr, -⟩ := hs.2 hp
  unfold State.Tracks
  rw [divide_map_symOf hc]
  constructor
  · intro h
    obtain ⟨hd, hn⟩ := h hp
    exact ⟨(remstr_injOn (divideBits_lt hc bits) hr (Except.ok.inj hd)).symm, hn⟩
  · rintro ⟨hreg, hn⟩ -
    exact ⟨by rw [hreg], hn⟩

theorem openOperation_tracks_nil (kind : StartKind) {w : Width} {p : Poly} (hc : LegalConfig w.toNat p) (s : State) :
    (openOperation (startMode kind) w p s).Tracks [] :=
  (State.tracks_iff (openOperation_inv kind hc s) rfl []).mpr ⟨rfl, rfl⟩

theorem acceptBit_tracks_concat (b : Bool) {s : State} {bits : List Bool} (hs : s.Inv) (hp : s.phase = .run)
    (ht : s.Tracks bits) : (acceptBit b s).Tracks (bits ++ [b]) := by
  obtain ⟨hreg, hn⟩ := (State.tracks_iff hs hp bits).mp ht
  refine (State.tracks_iff (acceptBit_inv b hs hp) hp _).mpr ⟨?_, ?_⟩
  · rw [acceptBit_reg, acceptBit_poly, acceptBit_width, divideBits_concat, hreg]
  · rw [acceptBit_cnt, countNext_toNat, hn, List.length_append, List.length_singleton]
    omega

theorem bitsAfter_push {s : State} {rest : List Word} {b : Bool} (hp : s.phase = .run)
    (hc : s.commands = encode (.push (symOf b)) :: rest) (bits : List Bool) : bitsAfter s bits = bits ++ [b] := by
  unfold bitsAfter
  rw [hp, hc]
  cases b <;> rfl

/-- `NOP` and `STAT` are no `PUSH`, so they leave the accepted sequence as it is. -/
theorem bitsAfter_transparent {s : State} {cmd : Word} {rest : List Word} {i : Instr} (hp : s.phase = .run)
    (hc : s.commands = cmd :: rest) (hd : decode cmd = .ok i) (hi : i.isTransparent = true) (bits : List Bool) :
    bitsAfter s bits = bits := by
  have hne : ∀ b, cmd ≠ encode (.push (symOf b)) := by
    rintro b rfl
    have hpush : decode (encode (.push (symOf b))) = .ok (.push (symOf b)) := by cases b <;> decide
    cases hpush.symm.trans hd
    cases hi
  unfold bitsAfter
  rw [hp, hc]
  exact (if_neg (hne false)).trans (if_neg (hne true))

/-- A word that decodes to a command carries the tracked sequence on. -/
theorem Effect.tracks {s t : State} {cmd : Word} {rest : List Word} {i : Instr} {bits : List Bool} (hs : s.Inv)
    (ht : s.Tracks bits) (hc : s.commands = cmd :: rest) (hd : decode cmd = .ok i)
    (h : Effect { s with commands := rest } i t) : t.Tracks (bitsAfter s bits) := by
  have transparent : i.isTransparent = true → s.Tracks (bitsAfter s bits) := fun hi hp => by
    rw [bitsAfter_transparent hp hc hd hi]
    exact ht hp
  cases h with
  | nop => exact transparent rfl
  | stat => exact transparent rfl
  | abort => exact State.tracks_of_idle rfl _
  | closed => exact State.tracks_of_idle rfl _
  | opened kind _ _ hp hcfg =>
    rw [bitsAfter_of_idle (s := s) hp]
    exact openOperation_tracks_nil kind hcfg _
  | accepted sym b _ hp hb =>
    rw [eq_encode_push_of_decode hd, (bitOf?_eq_some_iff sym b).mp hb] at hc
    rw [bitsAfter_push (s := s) hp hc]
    exact acceptBit_tracks_concat b hs hp ht

/-! ### Completion under the invariant (R149) -/

theorem exec_completes {s : State} (hs : s.Inv) (i : Instr) : ∃ t, exec i s = .next t := by
  cases i with
  | push sym =>
    obtain ⟨-, h⟩ | ⟨-, -, h⟩ | ⟨-, _, -, h⟩ := execPush_cases sym s <;> exact ⟨_, h⟩
  | endOp =>
    obtain ⟨-, h⟩ | ⟨hp, hm, -⟩ | ⟨-, -, h⟩ | ⟨-, -, h⟩ | ⟨-, -, h⟩ := execEnd_cases s
    · exact ⟨_, h⟩
    · exact absurd hm (hs.2 hp).1
    all_goals exact ⟨_, h⟩
  | _ => exact ⟨_, rfl⟩

theorem acceptWord_completes {s : State} (hs : s.Inv) (cmd : Word) : ∃ t, acceptWord cmd s = .next t := by
  cases hd : decode cmd with
  | ok i =>
    rw [acceptWord_of_decode hd]
    exact exec_completes hs i
  | error e => exact ⟨_, acceptWord_of_error hd s⟩

theorem step_completes {s : State} (hs : s.Inv) : ∃ t, step s = .next t := by
  cases hc : s.commands with
  | nil => exact ⟨s, step_nil hc⟩
  | cons cmd rest =>
    rw [step_cons hc]
    exact acceptWord_completes (s := { s with commands := rest }) hs cmd

theorem runSteps_completes (k : Nat) {s : State} (hs : s.Inv) : ∃ t, runSteps k s = .next t := by
  induction k generalizing s with
  | zero => exact ⟨s, rfl⟩
  | succ k ih =>
    obtain ⟨t, h⟩ := step_completes hs
    obtain ⟨u, hu⟩ := ih (step_inv hs h)
    exact ⟨u, by rw [runSteps, h]; exact hu⟩

/-! ### Earlier responses are never read (R33)

A run commutes with putting words in front of the response trace, so two idle states run alike. -/

/-- The state as if the words of `pre` had been emitted before all others. -/
def State.withHistory (pre : List Word) (s : State) : State := { s with responses := pre ++ s.responses }

/-- `State.withHistory` on an outcome: a fault or a refusal has no trace. -/
def resultWithHistory (pre : List Word) : Result → Result
  | .next s => .next (s.withHistory pre)
  | .fault r => .fault r
  | .refused r => .refused r

section History

variable (pre : List Word) (s : State)

@[simp] theorem withHistory_phase : (s.withHistory pre).phase = s.phase := rfl
@[simp] theorem withHistory_mode : (s.withHistory pre).mode = s.mode := rfl
@[simp] theorem withHistory_width : (s.withHistory pre).width = s.width := rfl
@[simp] theorem withHistory_poly : (s.withHistory pre).poly = s.poly := rfl
@[simp] theorem withHistory_reg : (s.withHistory pre).reg = s.reg := rfl
@[simp] theorem withHistory_cnt : (s.withHistory pre).cnt = s.cnt := rfl

theorem emitAll_withHistory (rsps : List Word) :
    emitAll rsps (s.withHistory pre) = (emitAll rsps s).withHistory pre := by
  simp [emitAll, State.withHistory]

theorem emit_withHistory (rsp : Word) : emit rsp (s.withHistory pre) = (emit rsp s).withHistory pre :=
  emitAll_withHistory pre s [rsp]

theorem raise_withHistory (op : Opcode) (cause : Cause) (sym : Symbol) :
    raise op cause sym (s.withHistory pre) = (raise op cause sym s).withHistory pre :=
  congrArg toIdle (emit_withHistory pre s _)

theorem finish_withHistory (rem : Rem) : finish rem (s.withHistory pre) = (finish rem s).withHistory pre :=
  congrArg toIdle (emit_withHistory pre s _)

theorem start_withHistory (op : Opcode) (mode : Mode) (w : Width) (p : Poly) :
    start op mode w p (s.withHistory pre) = (start op mode w p s).withHistory pre := by
  unfold start
  rw [withHistory_phase]
  cases s.phase with
  | run => exact raise_withHistory pre s ..
  | idle =>
    cases checkConfig w p with
    | some cause => exact raise_withHistory pre s ..
    | none => rfl

theorem endEncode_withHistory : endEncode (s.withHistory pre) = (endEncode s).withHistory pre := by
  unfold endEncode
  rw [withHistory_cnt]
  split
  · exact raise_withHistory pre s ..
  · simp only [emitAll_withHistory, finish_withHistory, withHistory_width, withHistory_reg, withHistory_poly]

theorem endVerify_withHistory : endVerify (s.withHistory pre) = (endVerify s).withHistory pre := by
  unfold endVerify
  rw [withHistory_cnt, withHistory_width]
  split
  · exact raise_withHistory pre s ..
  · exact finish_withHistory pre s _

theorem execPush_withHistory (sym : Symbol) :
    execPush sym (s.withHistory pre) = resultWithHistory pre (execPush sym s) := by
  unfold execPush
  rw [withHistory_phase]
  cases s.phase with
  | idle => exact congrArg _ (raise_withHistory pre s ..)
  | run =>
    cases bitOf? sym with
    | none => exact congrArg _ (raise_withHistory pre s ..)
    | some b =>
      by_cases hm : s.mode = .enc
      · have hm' : (s.withHistory pre).mode = .enc := hm
        simp only [if_pos hm, if_pos hm']
        exact congrArg _ (emit_withHistory pre (acceptBit b s) _)
      · have hm' : (s.withHistory pre).mode ≠ .enc := hm
        simp only [if_neg hm, if_neg hm']
        rfl

theorem execEnd_withHistory : execEnd (s.withHistory pre) = resultWithHistory pre (execEnd s) := by
  unfold execEnd
  rw [withHistory_phase, withHistory_mode]
  cases s.phase with
  | idle => exact congrArg _ (raise_withHistory pre s ..)
  | run =>
    cases s.mode with
    | none => rfl
    | div => exact congrArg _ (finish_withHistory pre s _)
    | enc => exact congrArg _ (endEncode_withHistory pre s)
    | ver => exact congrArg _ (endVerify_withHistory pre s)

theorem exec_withHistory (i : Instr) : exec i (s.withHistory pre) = resultWithHistory pre (exec i s) := by
  cases i with
  | nop => rfl
  | abort => rfl
  | stat => exact congrArg _ (emit_withHistory pre s _)
  | push sym => exact execPush_withHistory pre s sym
  | endOp => exact execEnd_withHistory pre s
  | _ => exact congrArg _ (start_withHistory pre s ..)

theorem acceptWord_withHistory (cmd : Word) :
    acceptWord cmd (s.withHistory pre) = resultWithHistory pre (acceptWord cmd s) := by
  cases hd : decode cmd with
  | ok i => simp only [acceptWord_of_decode hd, exec_withHistory]
  | error e => simp only [acceptWord_of_error hd, raise_withHistory, resultWithHistory]

theorem step_withHistory : step (s.withHistory pre) = resultWithHistory pre (step s) := by
  cases hc : s.commands with
  | nil => rw [step_nil hc, step_nil (s := s.withHistory pre) hc, resultWithHistory]
  | cons cmd rest =>
    rw [step_cons hc, step_cons (s := s.withHistory pre) hc]
    exact acceptWord_withHistory pre { s with commands := rest } cmd

end History

theorem runSteps_withHistory (pre : List Word) (k : Nat) (s : State) :
    runSteps k (s.withHistory pre) = resultWithHistory pre (runSteps k s) := by
  induction k generalizing s with
  | zero => rfl
  | succ k ih =>
    rw [runSteps, runSteps, step_withHistory]
    cases step s with
    | next t => exact ih t
    | fault r => rfl
    | refused r => rfl

/-- An idle state differs from reset in its channels alone. -/
theorem State.eq_reset_withHistory {s : State} (h : s.isS0) (words : List Word) :
    { s with commands := words } = { State.reset with commands := words }.withHistory s.responses := by
  obtain ⟨phase, mode, width, poly, reg, cnt, commands, responses⟩ := s
  obtain ⟨rfl, rfl, rfl, rfl, rfl, rfl⟩ := h
  simp [State.withHistory, State.reset]

theorem runWords_of_isS0 {s : State} (h : s.isS0) (words : List Word) :
    runWords words s = resultWithHistory s.responses (runWords words State.reset) := by
  unfold runWords
  rw [State.eq_reset_withHistory h, runSteps_withHistory]

/-! ### The fields of the words that carry a mode -/

theorem rspMode_doneWord (mode : Mode) (width : Width) (rem : Rem) : rspMode (doneWord mode width rem) = mode.bits := by
  apply BitVec.eq_of_getLsbD_eq
  intro i hi
  simp only [rspMode, BitVec.getLsbD_extractLsb', hi, decide_true, Bool.true_and, doneWord, BitVec.getLsbD_append]
  repeat rw [if_neg (by omega)]
  rw [if_pos (by omega)]
  congr 1; omega

theorem rspZero_doneWord (mode : Mode) (width : Width) (rem : Rem) :
    rspZero (doneWord mode width rem) = zeroFlag rem := by
  simp only [rspZero, doneWord, BitVec.getLsbD_append]
  cases zeroFlag rem <;> rfl

theorem Mode.bits_eq_ver_iff (mode : Mode) : mode.bits = Mode.ver.bits ↔ mode = .ver := by
  cases mode <;> decide

/-- The verdict of a `DONE` word: its `ZERO`, in `VER` mode alone (R23, R175). -/
theorem verdictOf?_doneWord (mode : Mode) (width : Width) (rem : Rem) :
    verdictOf? (doneWord mode width rem) =
      if mode = .ver then some (if rem = 0#32 then .noDetectableError else .errorDetected) else none := by
  unfold verdictOf?
  rw [rspKind_doneWord, rspMode_doneWord, rspZero_doneWord]
  simp only [true_and, Mode.bits_eq_ver_iff, zeroFlag, beq_iff_eq]

/-- Bits 45:44 of a command word are the low two bits of its opcode (R46). -/
theorem extractLsb'_44_2_eq_opField_low (cmd : Word) : cmd.extractLsb' 44 2 = (opField cmd).extractLsb' 0 2 := by
  apply BitVec.eq_of_getLsbD_eq
  intro i hi
  have hi' : i < 4 := by omega
  simp [opField, hi, hi']

/-- The opcodes of the start commands carry the mode in their low two bits (R17, R50). -/
theorem opField_encode_startInstr_low (kind : StartKind) (w : Width) (p : Poly) :
    (opField (encode (startInstr kind w p))).extractLsb' 0 2 = (startMode kind).bits := by
  cases kind <;> simp only [startInstr, encode, (wordS_fields _ w p).1] <;> rfl

end Sys2Proof.Machine

/-! ### The statements -/

namespace Sys2Proof.Proofs

open Sys2Proof Sys2Proof.Machine

/-- Settles O3: each case of `step_cases` keeps the invariant; `lfsrStep_lt` bounds the register after a `PUSH`. -/
theorem stepKeepsTheControlInvariant : Obligations.StepKeepsTheControlInvariant :=
  fun _ _ => step_inv

/-- Settles O57: the register is determined by its string (`State.tracks_iff`), and a `PUSH` divides by one symbol more. -/
theorem stepExtendsTheDivision : Obligations.StepExtendsTheDivision := by
  intro s t bits hs ht h
  obtain ⟨hc, rfl⟩ | ⟨cmd, rest, hc, ⟨i, hd, heff⟩ | ⟨e, rfl⟩⟩ := step_cases h
  · intro hp
    rw [bitsAfter_nil hp hc]
    exact ht hp
  · exact heff.tracks hs ht hc hd
  · exact State.tracks_of_idle rfl _

/-- Settles O6, by the effects a command can have. -/
theorem commandsChangeOnlyTheirFields : Obligations.CommandsChangeOnlyTheirFields := by
  intro i s t h
  cases exec_effect h with
  | nop => exact ⟨rfl, ⟨[], by simp⟩, rfl⟩
  | stat => exact ⟨rfl, ⟨_, rfl⟩, rfl⟩
  | abort => exact ⟨rfl, ⟨[], by simp⟩, toIdle_isS0 s, rfl⟩
  | closed _ new hi ha =>
    refine ⟨rfl, ⟨new, rfl⟩, ?_⟩
    have hidle := toIdle_isS0 (emitAll new s)
    cases i with
    | nop => cases hi
    | stat => cases hi
    | abort => exact absurd rfl ha
    | endOp => exact hidle
    | _ => exact .inl hidle
  | opened kind => cases kind <;> exact ⟨rfl, ⟨[], by simp⟩, .inr ⟨rfl, rfl, rfl, rfl, rfl, rfl⟩⟩
  | accepted _ _ new => exact ⟨rfl, ⟨new, rfl⟩, .inr ⟨rfl, rfl, rfl, rfl⟩⟩

/-- Settles O7: both runs are the run from reset with another history in front of it. -/
theorem nothingSurvivesAnOperation : Obligations.NothingSurvivesAnOperation := by
  intro words s s' hs hs'
  obtain ⟨t, ht⟩ : ∃ t, runWords words State.reset = .next t :=
    runSteps_completes words.length (State.inv_of_isS0 State.reset_isS0)
  refine ⟨t.withHistory s.responses, t.withHistory s'.responses, t.responses, ?_, ?_, rfl, rfl, rfl⟩
  · rw [runWords_of_isS0 hs, ht, resultWithHistory]
  · rw [runWords_of_isS0 hs', ht, resultWithHistory]

/-- Settles O59: a `DONE` word by its fields, every other word by its `KIND`. -/
theorem onlyVerifyCarriesAVerdict : Obligations.OnlyVerifyCarriesAVerdict := by
  refine ⟨verdictOf?_doneWord, fun m w phase cnt => ?_, fun m sym op c => ?_, fun sym => ?_⟩ <;>
    apply verdictOf?_of_kind_ne
  · rw [rspKind_statusWord]; decide
  · rw [rspKind_errWord]; decide
  · rw [rspKind_cwsymWord]; decide

/-- Settles O1: `State.reset` is written out with these values. -/
theorem resetIsIdleAndSilent : Obligations.ResetIsIdleAndSilent :=
  ⟨State.reset_isS0, rfl⟩

/-- Settles O2: reset is `S0`, and its trace has no word whose kind could be wrong. -/
theorem resetMeetsTheInvariant : Obligations.ResetMeetsTheInvariant :=
  ⟨State.inv_of_isS0 State.reset_isS0, fun _ hr => (List.not_mem_nil hr).elim, rfl⟩

/-- Settles O8: only `openOperation` answers a state in `RUN`, and it writes the mode of the opcode. -/
theorem modeIsTheLowOpcodeBits : Obligations.ModeIsTheLowOpcodeBits := by
  intro kind w p s t h hp
  obtain ⟨op, hop⟩ := exec_startInstr kind w p s
  cases hop.symm.trans h
  rw [extractLsb'_44_2_eq_opField_low, opField_encode_startInstr_low]
  obtain ⟨-, h'⟩ | ⟨-, cause, -, h'⟩ | ⟨-, -, h'⟩ := start_cases op (startMode kind) w p s <;> rw [h'] at hp ⊢
  · cases hp
  · cases hp
  · rfl

end Sys2Proof.Proofs

/-! Proofs, family "Memory": what a command leaves of the waiting words, runs over one list after another, the transfers
at the ports and the number of words a command emits; then the statements of 20_memory.md. -/

namespace Sys2Proof.Machine

/-! ### Waiting words are never read (R32)

A command commutes with putting other words on the command channel, so a run over `a ++ b` is the run over `a` and then
the run over `b`. -/

/-- The state with these words still to be accepted. -/
def State.withCommands (words : List Word) (s : State) : State := { s with commands := words }

section Waiting

variable (words : List Word) {s t : State}

@[simp] theorem withCommands_phase : (s.withCommands words).phase = s.phase := rfl
@[simp] theorem withCommands_mode : (s.withCommands words).mode = s.mode := rfl
@[simp] theorem withCommands_width : (s.withCommands words).width = s.width := rfl
@[simp] theorem withCommands_cnt : (s.withCommands words).cnt = s.cnt := rfl
@[simp] theorem withCommands_commands : (s.withCommands words).commands = words := rfl

theorem withCommands_of_eq (h : s.commands = words) : s.withCommands words = s := by
  subst h; rfl

theorem start_withCommands (op : Opcode) (mode : Mode) (w : Width) (p : Poly) :
    start op mode w p (s.withCommands words) = (start op mode w p s).withCommands words := by
  unfold start
  rw [withCommands_phase]
  cases s.phase with
  | run => rfl
  | idle => cases checkConfig w p <;> rfl

theorem endEncode_withCommands : endEncode (s.withCommands words) = (endEncode s).withCommands words := by
  unfold endEncode
  rw [withCommands_cnt]
  split <;> rfl

theorem endVerify_withCommands : endVerify (s.withCommands words) = (endVerify s).withCommands words := by
  unfold endVerify
  rw [withCommands_cnt, withCommands_width]
  split <;> rfl

theorem execPush_withCommands {sym : Symbol} (h : execPush sym s = .next t) :
    execPush sym (s.withCommands words) = .next (t.withCommands words) := by
  obtain ⟨hp, h'⟩ | ⟨hp, hb, h'⟩ | ⟨hp, b, hb, h'⟩ := execPush_cases sym s <;> cases h'.symm.trans h <;>
    simp only [execPush, withCommands_phase, hp]
  · rfl
  · rw [hb]; rfl
  · rw [hb, apply_ite (State.withCommands words)]
    rfl

theorem execEnd_withCommands (h : execEnd s = .next t) :
    execEnd (s.withCommands words) = .next (t.withCommands words) := by
  obtain ⟨hp, h'⟩ | ⟨-, -, h'⟩ | ⟨hp, hm, h'⟩ | ⟨hp, hm, h'⟩ | ⟨hp, hm, h'⟩ := execEnd_cases s <;>
    cases h'.symm.trans h
  · simp only [execEnd, withCommands_phase, hp]; rfl
  all_goals simp only [execEnd, withCommands_phase, withCommands_mode, hp, hm]
  · rfl
  · rw [endEncode_withCommands]
  · rw [endVerify_withCommands]

theorem exec_withCommands {i : Instr} (h : exec i s = .next t) :
    exec i (s.withCommands words) = .next (t.withCommands words) := by
  cases i with
  | push sym => exact execPush_withCommands words h
  | endOp => exact execEnd_withCommands words h
  | nop | abort | stat => cases h; rfl
  | _ => cases h; exact congrArg _ (start_withCommands words ..)

theorem acceptWord_withCommands {cmd : Word} (h : acceptWord cmd s = .next t) :
    acceptWord cmd (s.withCommands words) = .next (t.withCommands words) := by
  cases hd : decode cmd with
  | ok i =>
    rw [acceptWord_of_decode hd] at h ⊢
    exact exec_withCommands words h
  | error e =>
    rw [acceptWord_of_error hd] at h ⊢
    cases h; rfl

end Waiting

/-- Accepting a word leaves the waiting words alone: they could be put there again. -/
theorem acceptWord_commands {cmd : Word} {s t : State} (h : acceptWord cmd s = .next t) : t.commands = s.commands := by
  have h' := acceptWord_withCommands s.commands h
  rw [withCommands_of_eq _ rfl, h] at h'
  cases t
  cases h'; rfl

/-- A run over a word and the words after it, where it answers next. -/
theorem runWords_cons_eq_next {cmd : Word} {rest : List Word} {s t : State} (h : runWords (cmd :: rest) s = .next t) :
    ∃ u, acceptWord cmd (s.withCommands rest) = .next u ∧ runWords rest u = .next t := by
  cases hu : acceptWord cmd (s.withCommands rest) with
  | next u => exact ⟨u, rfl, runWords_cons_next hu (acceptWord_commands hu) ▸ h⟩
  | fault r => rw [runWords_cons, ← State.withCommands, hu] at h; cases h
  | refused r => rw [runWords_cons, ← State.withCommands, hu] at h; cases h

/-- A run over two lists is a run over the first and then a run over the second (R38, R39). -/
theorem runWords_append {a : List Word} (b : List Word) {s t : State} (h : runWords a s = .next t) :
    runWords (a ++ b) s = runWords b t := by
  induction a generalizing s with
  | nil => cases h; rfl
  | cons cmd a ih =>
    obtain ⟨u, hu, hrun⟩ := runWords_cons_eq_next h
    have hu' : acceptWord cmd (s.withCommands (a ++ b)) = .next (u.withCommands (a ++ b)) :=
      acceptWord_withCommands (s := s.withCommands a) (a ++ b) hu
    exact (runWords_cons_next hu' rfl).trans (ih hrun)

theorem runSteps_inv {k : Nat} {s t : State} (hs : s.Inv) (h : runSteps k s = .next t) : t.Inv := by
  induction k generalizing s with
  | zero => cases h; exact hs
  | succ k ih =>
    obtain ⟨u, hu⟩ := step_completes hs
    rw [runSteps, hu] at h
    exact ih (step_inv hs hu) h

theorem runWords_inv {words : List Word} {s t : State} (hs : s.Inv) (h : runWords words s = .next t) : t.Inv :=
  runSteps_inv (s := s.withCommands words) hs h

/-! ### The ports (R31 to R34)

The two transfers of an edge keep the agreement, each on its own. -/

/-- Agreement in terms of the run's trace: the delivered words are the history in front of the pending ones. -/
theorem PortState.agrees_iff (p : PortState) :
    p.Agrees ↔
      p.core.commands = [] ∧ runWords p.accepted State.reset = .next (p.core.withHistory p.delivered) :=
  Iff.rfl

/-- The core of an agreeing port state was reached by a run from reset, so it meets the invariant. -/
theorem PortState.Agrees.core_inv {p : PortState} (h : p.Agrees) : p.core.Inv := by
  obtain ⟨-, hrun⟩ := p.agrees_iff.mp h
  have hinv : (p.core.withHistory p.delivered).Inv := runWords_inv (State.inv_of_isS0 State.reset_isS0) hrun
  exact hinv

/-- A response presented on legal wires is the oldest pending word (R33). -/
theorem Edge.legal_rspData {e : Edge} {p : PortState} (hl : e.legal p = true) (hv : e.rspValid = true) :
    p.core.responses.head? = some e.rspData := by
  unfold Edge.legal at hl
  simp only [Bool.and_eq_true, hv, Bool.not_true, Bool.false_or, beq_iff_eq] at hl
  obtain ⟨-, hhead⟩ := hl
  exact hhead

theorem transferResponse_agrees {e : Edge} {p : PortState} (hp : p.Agrees) (hl : e.legal p = true) :
    (transferResponse e p).Agrees ∧ (transferResponse e p).accepted = p.accepted ∧
      (transferResponse e p).delivered = p.delivered ++ if e.takesResponse then [e.rspData] else [] := by
  obtain ⟨hcommands, hrun⟩ := hp
  unfold transferResponse
  split
  case isTrue ht =>
    simp only [Edge.takesResponse, Bool.and_eq_true] at ht
    obtain ⟨⟨hv, -⟩, -⟩ := ht
    have hhead := Edge.legal_rspData hl hv
    refine ⟨⟨hcommands, ?_⟩, rfl, ?_⟩
    · simp only [List.append_assoc, List.take_append_drop]
      exact hrun
    · simp only [List.take_one, hhead, Option.toList_some]
  case isFalse => exact ⟨⟨hcommands, hrun⟩, rfl, by simp⟩

theorem transferCommand_agrees (e : Edge) {p : PortState} (hp : p.Agrees) :
    ∃ q, transferCommand e p = .next q ∧ q.Agrees ∧
      q.accepted = p.accepted ++ (if e.takesCommand then [e.cmdData] else []) ∧ q.delivered = p.delivered := by
  have ⟨hcommands, hrun⟩ := p.agrees_iff.mp hp
  unfold transferCommand
  split
  case isTrue =>
    obtain ⟨c, hc⟩ := acceptWord_completes hp.core_inv e.cmdData
    rw [hc]
    have hccommands : c.commands = [] := (acceptWord_commands hc).trans hcommands
    refine ⟨_, rfl, (PortState.agrees_iff _).mpr ⟨hccommands, ?_⟩, rfl, rfl⟩
    -- the run of the accepted words goes on with the new word, the delivered words being history
    have haccept : acceptWord e.cmdData ((p.core.withHistory p.delivered).withCommands []) =
        .next (c.withHistory p.delivered) := by
      have hwait : (p.core.withHistory p.delivered).withCommands [] = p.core.withHistory p.delivered :=
        withCommands_of_eq [] hcommands
      rw [hwait, acceptWord_withHistory, hc, resultWithHistory]
    calc runWords (p.accepted ++ [e.cmdData]) State.reset
      _ = runWords [e.cmdData] (p.core.withHistory p.delivered) := runWords_append _ hrun
      _ = runWords [] (c.withHistory p.delivered) := runWords_cons_next haccept hccommands
      _ = .next (c.withHistory p.delivered) :=
        congrArg _ (withCommands_of_eq (s := c.withHistory p.delivered) [] hccommands)
  case isFalse => exact ⟨p, rfl, hp, by simp, rfl⟩

/-! ### How many words a command emits (R33) -/

theorem start_emits (op : Opcode) (mode : Mode) (w : Width) (p : Poly) (s : State) :
    ∃ new, (start op mode w p s).responses = s.responses ++ new ∧
      new.length = if s.phase = .idle ∧ LegalConfig w.toNat p then 0 else 1 := by
  obtain ⟨hp, h⟩ | ⟨-, cause, hc, h⟩ | ⟨hp, hc, h⟩ := start_cases op mode w p s <;> rw [h]
  · refine ⟨_, rfl, (if_neg ?_).symm⟩
    simp [hp]
  · refine ⟨_, rfl, (if_neg ?_).symm⟩
    rw [← checkConfig_eq_none_iff, hc]
    simp
  · exact ⟨[], by simp, (if_pos ⟨hp, hc⟩).symm⟩

theorem execPush_emits {sym : Symbol} {s t : State} (h : execPush sym s = .next t) :
    ∃ new, t.responses = s.responses ++ new ∧
      new.length = if s.phase = .run ∧ s.mode ≠ .enc ∧ (sym = 0x30#8 ∨ sym = 0x31#8) then 0 else 1 := by
  obtain ⟨hp, h'⟩ | ⟨-, hb, h'⟩ | ⟨hp, b, hb, h'⟩ := execPush_cases sym s <;> cases h'.symm.trans h
  · refine ⟨_, rfl, (if_neg ?_).symm⟩
    simp [hp]
  · refine ⟨_, rfl, (if_neg ?_).symm⟩
    obtain ⟨h0, h1⟩ := (bitOf?_eq_none_iff sym).mp hb
    simp [h0, h1]
  · have hsym : sym = 0x30#8 ∨ sym = 0x31#8 := by
      rw [(bitOf?_eq_some_iff sym b).mp hb]
      cases b <;> decide
    by_cases hm : s.mode = .enc
    · rw [if_pos hm]
      exact ⟨_, rfl, (if_neg (by simp [hm])).symm⟩
    · rw [if_neg hm]
      exact ⟨[], by simp, (if_pos ⟨hp, hm, hsym⟩).symm⟩

theorem endEncode_emits (s : State) :
    ∃ new, (endEncode s).responses = s.responses ++ new ∧
      new.length = if s.cnt ≠ 0#6 then s.width.toNat + 1 else 1 := by
  unfold endEncode
  by_cases hc : s.cnt = 0#6
  · rw [if_pos hc, if_neg (not_not_intro hc)]
    exact ⟨_, rfl, rfl⟩
  · rw [if_neg hc, if_pos hc]
    exact ⟨_, List.append_assoc .., by simp⟩

theorem endVerify_emits (s : State) : ∃ rsp, (endVerify s).responses = s.responses ++ [rsp] := by
  unfold endVerify
  split <;> exact ⟨_, rfl⟩

theorem execEnd_emits {s t : State} (h : execEnd s = .next t) :
    ∃ new, t.responses = s.responses ++ new ∧
      new.length = if s.phase = .run ∧ s.mode = .enc ∧ s.cnt ≠ 0#6 then s.width.toNat + 1 else 1 := by
  obtain ⟨hp, h'⟩ | ⟨-, -, h'⟩ | ⟨hp, hm, h'⟩ | ⟨hp, hm, h'⟩ | ⟨hp, hm, h'⟩ := execEnd_cases s <;>
    cases h'.symm.trans h
  · exact ⟨_, rfl, by simp [hp]⟩
  · exact ⟨_, rfl, by simp [hm]⟩
  · simpa [hp, hm] using endEncode_emits s
  · obtain ⟨rsp, hrsp⟩ := endVerify_emits s
    exact ⟨[rsp], hrsp, by simp [hm]⟩

end Sys2Proof.Machine

/-! ### The statements -/

namespace Sys2Proof.Proofs

open Sys2Proof Sys2Proof.Machine

/-- Settles O56: each transfer of an edge keeps the agreement; an edge with `rst = 1` answers the reset state, which
agrees with the empty run. -/
theorem portsDeliverTheRun : Obligations.PortsDeliverTheRun := by
  refine ⟨⟨rfl, rfl⟩, fun e p hp hl => ?_⟩
  cases hrst : e.rst with
  | true => exact ⟨PortState.reset, by simp [clockEdge, hrst], ⟨rfl, rfl⟩, nofun⟩
  | false =>
    obtain ⟨hagrees, haccepted, hdelivered⟩ := transferResponse_agrees hp hl
    obtain ⟨q, hq, hqagrees, hqaccepted, hqdelivered⟩ := transferCommand_agrees e hagrees
    refine ⟨q, by simp [clockEdge, hrst, hq], hqagrees, fun _ => ⟨?_, ?_⟩⟩
    · rw [hqaccepted, haccepted]
      simp [Edge.takesCommand, hrst]
    · rw [hqdelivered, hdelivered]
      simp [Edge.takesResponse, hrst]

/-- Settles O17: `remstr_injOn` is the faithfulness; length and characters are those of the mapped range. -/
theorem remainderStringsAreFaithful : Obligations.RemainderStringsAreFaithful := by
  refine fun v v' w => ⟨remstr_length v w, fun k hk => ?_, remstr_injOn⟩
  simp [remstr, symOf, hk]

/-- Settles O52, command by command. -/
theorem responseCounts : Obligations.ResponseCounts := by
  intro i s t _ h
  cases i with
  | nop => cases h; exact ⟨[], by simp, rfl⟩
  | abort => cases h; exact ⟨[], by simp, rfl⟩
  | stat => cases h; exact ⟨_, rfl, rfl⟩
  | push sym => exact execPush_emits h
  | endOp => exact execEnd_emits h
  | div w p => cases h; exact start_emits ..
  | enc w p => cases h; exact start_emits ..
  | ver w p => cases h; exact start_emits ..

/-- Settles O9, by the laws of a step with and without a word. -/
theorem stepExecutesTheDecodedCommand : Obligations.StepExecutesTheDecodedCommand :=
  ⟨fun _ _ _ _ hc hd => (step_cons hc).trans (acceptWord_of_decode hd _), fun _ => step_nil⟩

end Sys2Proof.Proofs

/-! Proofs, family "Encoding": the decoder as the inverse of the encoder, the words that are no command, the match and
mask table, the fields and kinds of the response words and the lines of the assembler; then the statements of
30_encoding.md. -/

namespace Sys2Proof

open Sys2Proof.Machine

/-! ### Words from their fields (R46 to R49) -/

/-- A word of format Z from its fields (R49), as `eq_fieldsS` for format S. -/
theorem eq_fieldsZ (cmd : Word) : cmd = opField cmd ++ rsvZ cmd := by
  have h : opField cmd ++ rsvZ cmd = cmd.extractLsb' 0 48 := BitVec.extractLsb'_append_extractLsb'_eq_extractLsb' rfl
  rw [h, BitVec.extractLsb'_eq_self]

theorem wordS_eq_of_fields {op : Opcode} {cmd : Word} (hop : opField cmd = op) (hrsv : rsvS cmd = 0#5) :
    wordS op (widthField cmd) (polyField cmd) = cmd := by
  conv_rhs => rw [eq_fieldsS cmd, hop, hrsv]
  rfl

theorem wordP_eq_of_fields {op : Opcode} {cmd : Word} (hop : opField cmd = op) (hrsv : rsvP cmd = 0#36) :
    wordP op (symField cmd) = cmd := by
  conv_rhs => rw [eq_fieldsP cmd, hop, hrsv]
  rfl

theorem wordZ_eq_of_fields {op : Opcode} {cmd : Word} (hop : opField cmd = op) (hrsv : rsvZ cmd = 0#44) :
    wordZ op = cmd := by
  conv_rhs => rw [eq_fieldsZ cmd, hop, hrsv]
  rfl

/-! ### The decoder is the inverse of the encoder (R60) -/

theorem decode_encode (i : Instr) : decode (encode i) = .ok i := by
  cases i with
  | push sym => simp [encode, decode, decodeP, wordP_fields]
  | div w p | enc w p | ver w p => simp [encode, decode, decodeS, wordS_fields]
  | nop | endOp | abort | stat => simp [encode, decode, decodeZ, wordZ_fields]

theorem encode_of_decode {cmd : Word} {i : Instr} (h : decode cmd = .ok i) : encode i = cmd := by
  unfold decode at h
  split at h
  case h_5 hop =>
    obtain ⟨hrsv, rfl⟩ := decodeP_eq_ok_iff.mp h
    exact wordP_eq_of_fields (BitVec.eq_of_toNat_eq hop) hrsv
  case h_2 hop | h_3 hop | h_4 hop =>
    obtain ⟨hrsv, rfl⟩ := decodeS_eq_ok_iff.mp h
    exact wordS_eq_of_fields (BitVec.eq_of_toNat_eq hop) hrsv
  case h_1 hop | h_6 hop | h_7 hop | h_8 hop =>
    obtain ⟨hrsv, rfl⟩ := decodeZ_eq_ok_iff.mp h
    exact wordZ_eq_of_fields (BitVec.eq_of_toNat_eq hop) hrsv
  case h_9 => cases h

/-- A word decodes to a command exactly if it is the command's word. -/
theorem decode_eq_ok_iff {cmd : Word} {i : Instr} : decode cmd = .ok i ↔ encode i = cmd :=
  ⟨encode_of_decode, fun h => h ▸ decode_encode i⟩

/-! ### Words that are no command (R58) -/

theorem decode_of_opField_ge {cmd : Word} (h : 8 ≤ (opField cmd).toNat) : decode cmd = .error .reservedOpcode := by
  unfold decode
  split
  case h_9 => rfl
  all_goals omega

theorem decode_of_rsvS_ne {cmd : Word} (hop : (opField cmd).toNat ∈ [1, 2, 3]) (h : rsvS cmd ≠ 0#5) :
    decode cmd = .error .reservedField := by
  simp only [List.mem_cons, List.not_mem_nil, or_false] at hop
  obtain hop | hop | hop := hop <;> simp [decode, decodeS, hop, h]

theorem decode_of_rsvP_ne {cmd : Word} (hop : (opField cmd).toNat = 4) (h : rsvP cmd ≠ 0#36) :
    decode cmd = .error .reservedField := by
  simp [decode, decodeP, hop, h]

theorem decode_of_rsvZ_ne {cmd : Word} (hop : (opField cmd).toNat ∈ [0, 5, 6, 7]) (h : rsvZ cmd ≠ 0#44) :
    decode cmd = .error .reservedField := by
  simp only [List.mem_cons, List.not_mem_nil, or_false] at hop
  obtain hop | hop | hop | hop := hop <;> simp [decode, decodeZ, hop, h]

/-! ### The match and mask table (R65)

A mask is all ones on the opcode and on the reserved field of its format, so a masked word keeps those two fields. -/

theorem extractLsb'_and_of_allOnes {n start len : Nat} {x mask : BitVec n}
    (h : mask.extractLsb' start len = BitVec.allOnes len) :
    (x &&& mask).extractLsb' start len = x.extractLsb' start len := by
  rw [BitVec.extractLsb'_and, h, BitVec.and_allOnes]

theorem wordS_eq_of_mask {op : Opcode} {cmd : Word} (h : cmd &&& 0xFF8000000000#48 = wordS op 0#6 0#33) :
    wordS op (widthField cmd) (polyField cmd) = cmd := by
  obtain ⟨hop, hrsv, -, -⟩ := wordS_fields op 0#6 0#33
  rw [← h] at hop hrsv
  exact wordS_eq_of_fields ((extractLsb'_and_of_allOnes rfl).symm.trans hop)
    ((extractLsb'_and_of_allOnes rfl).symm.trans hrsv)

theorem wordP_eq_of_mask {op : Opcode} {cmd : Word} (h : cmd &&& 0xFFFFFFFFFF00#48 = wordP op 0#8) :
    wordP op (symField cmd) = cmd := by
  obtain ⟨hop, hrsv, -⟩ := wordP_fields op 0#8
  rw [← h] at hop hrsv
  exact wordP_eq_of_fields ((extractLsb'_and_of_allOnes rfl).symm.trans hop)
    ((extractLsb'_and_of_allOnes rfl).symm.trans hrsv)

theorem wordZ_eq_of_mask {op : Opcode} {cmd : Word} (h : cmd &&& 0xFFFFFFFFFFFF#48 = wordZ op) : wordZ op = cmd :=
  h.symm.trans BitVec.and_allOnes

/-- A word that matches a row is the word of a command with the row's mnemonic. -/
theorem exists_encode_of_match {row : OpcodeRow} (hrow : row ∈ opcodeTable) {cmd : Word}
    (h : cmd &&& row.mask = row.pattern) : ∃ i : Instr, encode i = cmd ∧ i.mnemonic = row.mnemonic := by
  simp only [opcodeTable, List.mem_cons, List.not_mem_nil, or_false] at hrow
  obtain rfl | rfl | rfl | rfl | rfl | rfl | rfl | rfl := hrow
  · exact ⟨.nop, wordZ_eq_of_mask h, rfl⟩
  · exact ⟨.div _ _, wordS_eq_of_mask h, rfl⟩
  · exact ⟨.enc _ _, wordS_eq_of_mask h, rfl⟩
  · exact ⟨.ver _ _, wordS_eq_of_mask h, rfl⟩
  · exact ⟨.push _, wordP_eq_of_mask h, rfl⟩
  · exact ⟨.endOp, wordZ_eq_of_mask h, rfl⟩
  · exact ⟨.abort, wordZ_eq_of_mask h, rfl⟩
  · exact ⟨.stat, wordZ_eq_of_mask h, rfl⟩

/-- The lemmas of `Laws.TableMatch` together: every command's word matches a row with the command's mnemonic. -/
theorem exists_row_match_encode (i : Instr) :
    ∃ row ∈ opcodeTable, row.mnemonic = i.mnemonic ∧ encode i &&& row.mask = row.pattern := by
  have h : Laws.TableMatch.Statement i := by
    cases i with
    | nop => exact Laws.TableMatch.nop
    | div w p => exact Laws.TableMatch.div w p
    | enc w p => exact Laws.TableMatch.enc w p
    | ver w p => exact Laws.TableMatch.ver w p
    | push sym => exact Laws.TableMatch.push sym
    | endOp => exact Laws.TableMatch.endOp
    | abort => exact Laws.TableMatch.abort
    | stat => exact Laws.TableMatch.stat
  obtain ⟨row, hrow, hname, haccepts⟩ := h
  exact ⟨row, hrow, hname, beq_iff_eq.mp haccepts⟩

/-- A mnemonic names one row of the table. -/
theorem opcodeTable_mnemonic_inj :
    ∀ row ∈ opcodeTable, ∀ row' ∈ opcodeTable, row.mnemonic = row'.mnemonic → row = row' := by
  decide

theorem decode_mnemonic_iff_match {row : OpcodeRow} (hrow : row ∈ opcodeTable) (cmd : Word) :
    (∃ i, decode cmd = .ok i ∧ i.mnemonic = row.mnemonic) ↔ cmd &&& row.mask = row.pattern := by
  simp only [decode_eq_ok_iff]
  constructor
  · rintro ⟨i, rfl, hname⟩
    obtain ⟨row', hrow', hname', hmatch⟩ := exists_row_match_encode i
    cases opcodeTable_mnemonic_inj row' hrow' row hrow (hname'.trans hname)
    exact hmatch
  · exact exists_encode_of_match hrow

end Sys2Proof

namespace Sys2Proof.Machine

theorem step_of_decode_error {s : State} {cmd : Word} {rest : List Word} {e : DecodeError}
    (hc : s.commands = cmd :: rest) (h : decode cmd = .error e) :
    step s = .next (raise (opField cmd) (decodeCause e) 0#8 { s with commands := rest }) :=
  (step_cons hc).trans (acceptWord_of_error h _)

/-! ### The fields of the response words (R53 to R56) -/

theorem statusWord_fields (mode : Mode) (width : Width) (phase : Phase) (cnt : Count) :
    rspMode (statusWord mode width phase cnt) = mode.bits ∧ rspWidth (statusWord mode width phase cnt) = width ∧
      (statusWord mode width phase cnt).extractLsb' 7 29 = 0#29 ∧
      rspPhase (statusWord mode width phase cnt) = phase.bits ∧ rspCount (statusWord mode width phase cnt) = cnt := by
  simp (disch := omega) only [statusWord, rspMode, rspWidth, rspPhase, rspCount, BitVec.extractLsb'_append_eq_of_le,
    BitVec.extractLsb'_append_eq_of_add_le, BitVec.extractLsb'_eq_self, Nat.reduceSub, and_self]

/-- The fields of `DONE` besides those of `rspKind_doneWord`, `rspMode_doneWord` and `rspZero_doneWord`. -/
theorem doneWord_fields (mode : Mode) (width : Width) (rem : Rem) :
    rspWidth (doneWord mode width rem) = width ∧ (doneWord mode width rem).extractLsb' 33 3 = 0#3 ∧
      rspRem (doneWord mode width rem) = rem := by
  simp (disch := omega) only [doneWord, rspWidth, rspRem, BitVec.extractLsb'_append_eq_of_le,
    BitVec.extractLsb'_append_eq_of_add_le, BitVec.extractLsb'_eq_self, Nat.reduceSub, and_self]

theorem errWord_fields (mode : Mode) (sym : Symbol) (op : Opcode) (cause : Cause) :
    rspMode (errWord mode sym op cause) = mode.bits ∧ (errWord mode sym op cause).extractLsb' 20 22 = 0#22 ∧
      rspErrSym (errWord mode sym op cause) = sym ∧ rspOp (errWord mode sym op cause) = op ∧
      (errWord mode sym op cause).extractLsb' 4 4 = cause.errorClass.code ∧
      (errWord mode sym op cause).extractLsb' 0 4 = cause.sub := by
  simp (disch := omega) only [errWord, rspMode, rspErrSym, rspOp, BitVec.extractLsb'_append_eq_of_le,
    BitVec.extractLsb'_append_eq_of_add_le, BitVec.extractLsb'_eq_self, Nat.reduceSub, true_and]
  exact ⟨BitVec.extractLsb'_append_eq_left, BitVec.extractLsb'_append_eq_right⟩

theorem cwsymWord_reserved (sym : Symbol) : (cwsymWord sym).extractLsb' 8 36 = 0#36 := by
  rw [cwsymWord, BitVec.extractLsb'_append_eq_of_le (by omega), BitVec.extractLsb'_append_eq_right]

/-! ### The kinds of the emitted words (R52) -/

/-- One of the four values of `KIND` (R52). -/
def KindLegal (rsp : Word) : Prop :=
  rspKind rsp = kindStatus ∨ rspKind rsp = kindCwsym ∨ rspKind rsp = kindDone ∨ rspKind rsp = kindErr

theorem kindLegal_statusWord (mode : Mode) (width : Width) (phase : Phase) (cnt : Count) :
    KindLegal (statusWord mode width phase cnt) :=
  .inl (rspKind_statusWord mode width phase cnt)

theorem kindLegal_cwsymWord (sym : Symbol) : KindLegal (cwsymWord sym) :=
  .inr (.inl (rspKind_cwsymWord sym))

theorem kindLegal_doneWord (mode : Mode) (width : Width) (rem : Rem) : KindLegal (doneWord mode width rem) :=
  .inr (.inr (.inl (rspKind_doneWord mode width rem)))

theorem kindLegal_errWord (mode : Mode) (sym : Symbol) (op : Opcode) (cause : Cause) :
    KindLegal (errWord mode sym op cause) :=
  .inr (.inr (.inr (rspKind_errWord mode sym op cause)))

section Kinds

variable {s t : State} (hs : s.ResponsesLegal)
include hs

theorem emitAll_responsesLegal {rsps : List Word} (h : ∀ r ∈ rsps, KindLegal r) : (emitAll rsps s).ResponsesLegal :=
  fun r hr => (List.mem_append.mp hr).elim (hs r) (h r)

theorem emit_responsesLegal {rsp : Word} (h : KindLegal rsp) : (emit rsp s).ResponsesLegal :=
  emitAll_responsesLegal hs (List.forall_mem_singleton.mpr h)

theorem raise_responsesLegal (op : Opcode) (cause : Cause) (sym : Symbol) : (raise op cause sym s).ResponsesLegal :=
  emit_responsesLegal hs (kindLegal_errWord ..)

theorem finish_responsesLegal (rem : Rem) : (finish rem s).ResponsesLegal :=
  emit_responsesLegal hs (kindLegal_doneWord ..)

theorem start_responsesLegal (op : Opcode) (mode : Mode) (w : Width) (p : Poly) :
    (start op mode w p s).ResponsesLegal := by
  obtain ⟨-, h⟩ | ⟨-, cause, -, h⟩ | ⟨-, -, h⟩ := start_cases op mode w p s <;> rw [h]
  · exact raise_responsesLegal hs _ _ _
  · exact raise_responsesLegal hs _ _ _
  · exact hs

theorem execPush_responsesLegal {sym : Symbol} (h : execPush sym s = .next t) : t.ResponsesLegal := by
  obtain ⟨-, h'⟩ | ⟨-, -, h'⟩ | ⟨-, b, -, h'⟩ := execPush_cases sym s <;> cases h'.symm.trans h
  · exact raise_responsesLegal hs _ _ _
  · exact raise_responsesLegal hs _ _ _
  · split
    · exact emit_responsesLegal (s := acceptBit b s) hs (kindLegal_cwsymWord sym)
    · exact hs

theorem endEncode_responsesLegal : (endEncode s).ResponsesLegal := by
  unfold endEncode
  split
  · exact raise_responsesLegal hs _ _ _
  · exact finish_responsesLegal
      (emitAll_responsesLegal hs (List.forall_mem_map.mpr fun sym _ => kindLegal_cwsymWord sym)) _

theorem endVerify_responsesLegal : (endVerify s).ResponsesLegal := by
  unfold endVerify
  split
  · exact raise_responsesLegal hs _ _ _
  · exact finish_responsesLegal hs _

theorem execEnd_responsesLegal (h : execEnd s = .next t) : t.ResponsesLegal := by
  obtain ⟨-, h'⟩ | ⟨-, -, h'⟩ | ⟨-, -, h'⟩ | ⟨-, -, h'⟩ | ⟨-, -, h'⟩ := execEnd_cases s <;> cases h'.symm.trans h
  · exact raise_responsesLegal hs _ _ _
  · exact finish_responsesLegal hs _
  · exact endEncode_responsesLegal hs
  · exact endVerify_responsesLegal hs

theorem exec_responsesLegal {i : Instr} (h : exec i s = .next t) : t.ResponsesLegal := by
  cases i with
  | push sym => exact execPush_responsesLegal hs h
  | endOp => exact execEnd_responsesLegal hs h
  | stat => cases h; exact emit_responsesLegal hs (kindLegal_statusWord ..)
  | nop | abort => cases h; exact hs
  | div w p | enc w p | ver w p => cases h; exact start_responsesLegal hs _ _ _ _

theorem acceptWord_responsesLegal {cmd : Word} (h : acceptWord cmd s = .next t) : t.ResponsesLegal := by
  cases hd : decode cmd with
  | ok i =>
    rw [acceptWord_of_decode hd] at h
    exact exec_responsesLegal hs h
  | error e =>
    rw [acceptWord_of_error hd] at h
    cases h
    exact raise_responsesLegal hs _ _ _

end Kinds

/-! ### The assembler (R62, R63) -/

/-- Every line but `.word` assembles to the words of its commands, unless it is ill formed. -/
theorem assemble_eq {line : AsmLine} (h : ∀ v, line ≠ .word v) :
    assemble line = if line.wellFormed then some ((lineInstrs line).map encode) else none := by
  cases line with
  | word v => exact absurd rfl (h v)
  | _ => rfl

theorem map_decode_of_assemble {line : AsmLine} {words : List Word} (h : assemble line = some words)
    (hline : ∀ v, line ≠ .word v) : words.map decode = (lineInstrs line).map fun i => .ok i := by
  rw [assemble_eq hline, Option.ite_none_right_eq_some] at h
  obtain ⟨-, h⟩ := h
  cases h
  rw [List.map_map]
  exact List.map_congr_left fun i _ => decode_encode i

theorem assemble_start (kind : StartKind) (w poly : Nat) :
    assemble (.start kind w poly) = if w ≤ 63 ∧ poly ≤ 2 ^ 33 - 1
      then some [encode (startInstr kind (BitVec.ofNat 6 w) (BitVec.ofNat 33 poly))] else none := by
  simp [assemble_eq, AsmLine.wellFormed, lineInstrs]

theorem assemble_push (sym : Nat) :
    assemble (.push sym) = if 255 < sym then none else some [encode (.push (BitVec.ofNat 8 sym))] := by
  rw [← ite_not]
  simp [assemble_eq, AsmLine.wellFormed, lineInstrs]

theorem assemble_pushS (codes : List Nat) :
    assemble (.pushS codes) = if ∃ c ∈ codes, 255 < c then none
      else some (codes.map fun c => encode (.push (BitVec.ofNat 8 c))) := by
  rw [← ite_not]
  simp [assemble_eq, AsmLine.wellFormed, lineInstrs, Function.comp_def]

theorem assemble_pushB (b : Nat) :
    assemble (.pushB b) = if 1 < b then none else some [encode (.push (BitVec.ofNat 8 (0x30 + b)))] := by
  rw [← ite_not]
  simp [assemble_eq, AsmLine.wellFormed, lineInstrs]

theorem assemble_word (v : Nat) :
    assemble (.word v) = if 2 ^ 48 ≤ v then none else some [BitVec.ofNat 48 v] := by
  rw [← ite_not]
  simp [assemble, AsmLine.wellFormed]

end Sys2Proof.Machine

/-! ### The statements -/

namespace Sys2Proof.Proofs

open Sys2Proof Sys2Proof.Machine

/-- Settles O11. Well-formedness is not needed: every value of `Instr` has it. -/
theorem decodeInvertsEncode : Obligations.DecodeInvertsEncode :=
  fun i _ => decode_encode i

/-- Settles O4: every word that a command or a raise emits is one of the four response words. -/
theorem stepKeepsResponseKinds : Obligations.StepKeepsResponseKinds := by
  intro s t hs h
  cases hc : s.commands with
  | nil =>
    rw [step_nil hc] at h
    cases h
    exact hs
  | cons cmd rest =>
    rw [step_cons hc] at h
    exact acceptWord_responsesLegal (s := { s with commands := rest }) hs h

/-- Settles O12: a word is its opcode, its reserved field, which the decoder finds zero, and its operands. -/
theorem encodeInvertsDecode : Obligations.EncodeInvertsDecode :=
  fun _ _ => encode_of_decode

/-- Settles O13: the first part says which words match a row; a word that decodes matches the row of its command. -/
theorem decodeAgreesWithTheOpcodeTable : Obligations.DecodeAgreesWithTheOpcodeTable := by
  refine fun cmd => ⟨fun row hrow => decode_mnemonic_iff_match hrow cmd, ?_⟩
  cases hd : decode cmd with
  | ok i =>
    obtain ⟨row, hrow, -, hmatch⟩ := exists_row_match_encode i
    rw [encode_of_decode hd] at hmatch
    exact iff_of_false (fun h => h row hrow hmatch) nofun
  | error e =>
    refine iff_of_true (fun row hrow hmatch => ?_) ⟨e, rfl⟩
    obtain ⟨i, hi, -⟩ := (decode_mnemonic_iff_match hrow cmd).mpr hmatch
    cases hd.symm.trans hi

/-- Settles O14: the step is the raise of the word's decode error, whatever the phase. -/
theorem reservedEncodingsRaise : Obligations.ReservedEncodingsRaise := fun _ _ _ hc =>
  ⟨fun hop => step_of_decode_error hc (decode_of_opField_ge hop),
    fun hop h => step_of_decode_error hc (decode_of_rsvS_ne hop h),
    fun hop h => step_of_decode_error hc (decode_of_rsvP_ne hop h),
    fun hop h => step_of_decode_error hc (decode_of_rsvZ_ne hop h)⟩

/-- Settles O15, word by word. -/
theorem responseFieldsStandInPlace : Obligations.ResponseFieldsStandInPlace := by
  refine ⟨fun m w rem => ?_, fun m sym op c => ⟨rspKind_errWord m sym op c, errWord_fields m sym op c⟩,
    fun sym => ⟨rspKind_cwsymWord sym, cwsymWord_reserved sym, rspSym_cwsymWord sym⟩⟩
  obtain ⟨hwidth, hzeros, hrem⟩ := doneWord_fields m w rem
  have hzero : rspZero (doneWord m w rem) = true ↔ rem = 0#32 := by
    rw [rspZero_doneWord, zeroFlag, beq_iff_eq]
  exact ⟨rspKind_doneWord m w rem, rspMode_doneWord m w rem, hwidth, hzeros, hzero, hrem⟩

/-- Settles O18, form by form. -/
theorem assemblerWordsAndLimits : Obligations.AssemblerWordsAndLimits := by
  refine ⟨fun kind w poly => ⟨?_, fun hw hpoly => ?_⟩, assemble_push, assemble_pushS, assemble_pushB, assemble_word,
    rfl, rfl, rfl, rfl, fun _ _ => map_decode_of_assemble⟩
  · simp only [assemble_start, ite_eq_right_iff, reduceCtorEq, imp_false, not_and_or, not_le]
  · rw [assemble_start, if_pos ⟨hw, hpoly⟩]
    cases kind <;> rfl

/-- Settles O41: opcode 7 with a zero reserved field is the word of `STAT`, every other word of that opcode raises. -/
theorem statReportsTheControlState : Obligations.StatReportsTheControlState := by
  intro s cmd rest hc hop
  have hop' : opField cmd = 0x7#4 := hop
  refine ⟨fun hrsv => ?_, fun hrsv => ?_⟩
  · have hd : decode cmd = .ok .stat := decode_eq_ok_iff.mpr (wordZ_eq_of_fields hop' hrsv)
    obtain ⟨hmode, hwidth, hzeros, hphase, hcnt⟩ := statusWord_fields s.mode s.width s.phase s.cnt
    refine ⟨statusWord s.mode s.width s.phase s.cnt, (step_cons hc).trans (acceptWord_of_decode hd _),
      rspKind_statusWord .., hmode, hwidth, hzeros, hphase, hcnt, ?_⟩
    rintro ⟨hp, hm, hw, -, -, hn⟩
    rw [hp, hm, hw, hn]
    rfl
  · have hd : decode cmd = .error .reservedField := decode_of_rsvZ_ne (by simp [hop']) hrsv
    rw [step_of_decode_error hc hd, hop']
    rfl

/-- Settles O10: eight of the words are what the encoder makes of their commands. -/
theorem writtenWordsDecode : Obligations.WrittenWordsDecode :=
  ⟨decode_encode .nop, decode_encode (.div 4#6 0x13#33), decode_encode (.enc 32#6 0x104C11DB7#33),
    decode_encode (.ver 8#6 0x107#33), decode_encode (.push 0x31#8), decode_encode .endOp, decode_encode .abort,
    decode_encode .stat, decode_of_rsvZ_ne (by decide) (by decide), decode_of_opField_ge (by decide)⟩

end Sys2Proof.Proofs

/-! Proofs, family "The division engine": the division step bit by bit, as a polynomial step and as a linear one, what
the commands of an operation answer, and the run over the body of an operation; then the statements of
40_division_engine.md. -/

namespace Sys2Proof.Machine

/-! ### The division step (R70) -/

/-- The step of R70, its shifted value `t` being the library's `shiftConcat`. -/
theorem lfsrStep_eq (r : Reg) (b : Bool) (W : Nat) (p : Poly) :
    lfsrStep r b W p =
      if (r.shiftConcat b).getLsbD W then r.shiftConcat b ^^^ p.setWidth 34 else r.shiftConcat b := by
  have h : (r <<< 1) ||| (BitVec.ofBool b).setWidth 34 = r.shiftConcat b := by
    apply BitVec.eq_of_getLsbD_eq
    intro i hi
    cases i <;> simp [hi]
  rw [← h]
  rfl

theorem getLsbD_shiftConcat_succ (r : Reg) (b : Bool) {i : Nat} (hi : i < 33) :
    (r.shiftConcat b).getLsbD (i + 1) = r.getLsbD i := by
  rw [BitVec.getLsbD_shiftConcat, decide_eq_true (by omega)]
  rfl

theorem shiftConcat_toNat (r : Reg) (b : Bool) : (r.shiftConcat b).toNat = (2 * r.toNat + b.toNat) % 2 ^ 34 := by
  rw [BitVec.toNat_shiftConcat, Nat.shiftLeft_eq, pow_one, mul_comm]

theorem setWidth_toNat (p : Poly) : (p.setWidth 34).toNat = p.toNat :=
  BitVec.toNat_setWidth_of_le (by omega)

theorem lfsrStep_toNat (r : Reg) (b : Bool) (W : Nat) (p : Poly) :
    (lfsrStep r b W p).toNat = if ((2 * r.toNat + b.toNat) % 2 ^ 34).testBit W
      then (2 * r.toNat + b.toNat) % 2 ^ 34 ^^^ p.toNat else (2 * r.toNat + b.toNat) % 2 ^ 34 := by
  rw [lfsrStep_eq, apply_ite BitVec.toNat, BitVec.toNat_xor, setWidth_toNat, BitVec.getLsbD, shiftConcat_toNat]

theorem getLsbD_lfsrStep (r : Reg) (b : Bool) (W : Nat) (p : Poly) (i : Nat) :
    (lfsrStep r b W p).getLsbD i =
      ((r.shiftConcat b).getLsbD i ^^ ((r.shiftConcat b).getLsbD W && p.getLsbD i)) := by
  have hp : (p.setWidth 34).getLsbD i = p.getLsbD i := by rw [BitVec.getLsbD, setWidth_toNat, BitVec.getLsbD]
  rw [lfsrStep_eq]
  cases (r.shiftConcat b).getLsbD W with
  | true => simp [hp]
  | false => simp

/-! ### The low bits of the register (R74 item 3) -/

/-- Two words agree below bit `W`. -/
def AgreeBelow {n : Nat} (W : Nat) (v v' : BitVec n) : Prop := ∀ k < W, v.getLsbD k = v'.getLsbD k

theorem lfsrStep_agreeBelow {W : Nat} {p q : Poly} (hpq : AgreeBelow W p q) {r r' : Reg} (hr : AgreeBelow W r r')
    (b : Bool) : AgreeBelow W (lfsrStep r b W p) (lfsrStep r' b W q) := by
  have ht : ∀ k ≤ W, (r.shiftConcat b).getLsbD k = (r'.shiftConcat b).getLsbD k := by
    intro k hk
    cases k with
    | zero => simp
    | succ k => rw [BitVec.getLsbD_shiftConcat, BitVec.getLsbD_shiftConcat, Nat.add_sub_cancel, hr k hk]
  intro k hk
  rw [getLsbD_lfsrStep, getLsbD_lfsrStep, ht k hk.le, ht W le_rfl, hpq k hk]

theorem shiftIn_agreeBelow {W : Nat} {p q : Poly} (hpq : AgreeBelow W p q) (bits : List Bool) {r r' : Reg}
    (hr : AgreeBelow W r r') : AgreeBelow W (shiftIn r bits W p) (shiftIn r' bits W q) := by
  induction bits generalizing r r' with
  | nil => exact hr
  | cons b bits ih => exact ih (lfsrStep_agreeBelow hpq hr b)

/-! ### The division as a polynomial remainder (R74) -/

section Polynomials

open Polynomial

/-- The polynomial over GF(2) whose coefficient of `X^i` is bit `i`, for `i < n`. -/
noncomputable def bitPoly (bit : Nat → Bool) (n : Nat) : (ZMod 2)[X] := ∑ i ∈ Finset.range n, if bit i then X ^ i else 0

/-- `M(x) = c[0] x^(n-1) + ... + c[n-1]` (R74). -/
noncomputable def messagePoly (bits : List Bool) : (ZMod 2)[X] :=
  ∑ k ∈ Finset.range bits.length, if bits.getD k false then X ^ (bits.length - 1 - k) else 0

theorem bitPoly_succ (bit : Nat → Bool) (n : Nat) :
    bitPoly bit (n + 1) = bitPoly bit n + if bit n then X ^ n else 0 :=
  Finset.sum_range_succ ..

theorem bitPoly_degree_lt (bit : Nat → Bool) (n : Nat) : (bitPoly bit n).degree < n := by
  refine mem_degreeLT.mp (Submodule.sum_mem _ fun i hi => mem_degreeLT.mpr ?_)
  have hlt : ((i : ℕ) : WithBot ℕ) < n := by exact_mod_cast Finset.mem_range.mp hi
  split
  · exact (degree_X_pow_le i).trans_lt hlt
  · simp

/-- Addition over GF(2) is XOR. -/
theorem bitPoly_xor (f g : Nat → Bool) (n : Nat) :
    bitPoly (fun i => f i ^^ g i) n = bitPoly f n + bitPoly g n := by
  unfold bitPoly
  rw [← Finset.sum_add_distrib]
  refine Finset.sum_congr rfl fun i _ => ?_
  cases hf : f i <;> cases hg : g i <;> simp [hf, hg, CharTwo.add_self_eq_zero]

theorem bitPoly_and (c : Bool) (f : Nat → Bool) (n : Nat) :
    bitPoly (fun i => c && f i) n = if c then bitPoly f n else 0 := by
  cases c <;> simp [bitPoly]

/-- Shifting a bit into the register multiplies by `X` and adds the bit. -/
theorem bitPoly_shiftConcat (r : Reg) (b : Bool) {n : Nat} (hn : n < 34) :
    bitPoly (r.shiftConcat b).getLsbD (n + 1) = X * bitPoly r.getLsbD n + if b then 1 else 0 := by
  unfold bitPoly
  rw [Finset.sum_range_succ', Finset.mul_sum]
  congr 1
  · refine Finset.sum_congr rfl fun i hi => ?_
    have hi' := Finset.mem_range.mp hi
    rw [getLsbD_shiftConcat_succ r b (by omega), mul_ite, mul_zero, pow_succ']
  · simp

theorem messagePoly_concat (bits : List Bool) (b : Bool) :
    messagePoly (bits ++ [b]) = X * messagePoly bits + if b then 1 else 0 := by
  unfold messagePoly
  rw [List.length_append, List.length_singleton, Finset.sum_range_succ, Finset.mul_sum]
  congr 1
  · refine Finset.sum_congr rfl fun k hk => ?_
    have hk' := Finset.mem_range.mp hk
    rw [List.getD_append _ _ _ _ hk', mul_ite, mul_zero, ← pow_succ']
    congr 2
    omega
  · simp

section Generator

variable {W : Nat} {p : Poly} (hc : LegalConfig W p)
include hc

/-- The generator is `X^W` plus lower terms. -/
theorem LegalConfig.bitPoly_eq : bitPoly p.getLsbD (W + 1) = X ^ W + bitPoly p.getLsbD W := by
  obtain ⟨-, -, hlead, -⟩ := hc
  rw [bitPoly_succ, if_pos hlead, add_comm]

theorem LegalConfig.bitPoly_monic : (bitPoly p.getLsbD (W + 1)).Monic := by
  rw [hc.bitPoly_eq]
  exact monic_X_pow_add (bitPoly_degree_lt _ W)

theorem LegalConfig.bitPoly_degree : (bitPoly p.getLsbD (W + 1)).degree = W := by
  rw [hc.bitPoly_eq, add_comm]
  exact (degree_add_eq_right_of_degree_lt (by simpa using bitPoly_degree_lt _ W)).trans (degree_X_pow W)

/-- One division step multiplies by `X`, adds the bit and subtracts the generator if bit `W` of the shifted value is
set. -/
theorem bitPoly_lfsrStep (r : Reg) (b : Bool) :
    bitPoly (lfsrStep r b W p).getLsbD W =
      X * bitPoly r.getLsbD W + (if b then 1 else 0) +
        if (r.shiftConcat b).getLsbD W then bitPoly p.getLsbD (W + 1) else 0 := by
  have ⟨_, hW, hlead, _⟩ := hc
  -- bit `W` of the result is cancelled by the polynomial's leading bit
  have hbit : (lfsrStep r b W p).getLsbD W = false := by
    rw [getLsbD_lfsrStep, hlead, Bool.and_true, Bool.xor_self]
  calc bitPoly (lfsrStep r b W p).getLsbD W
    _ = bitPoly (lfsrStep r b W p).getLsbD (W + 1) := by simp [bitPoly_succ, hbit]
    _ = bitPoly (r.shiftConcat b).getLsbD (W + 1) +
          if (r.shiftConcat b).getLsbD W then bitPoly p.getLsbD (W + 1) else 0 := by
      rw [← bitPoly_and, ← bitPoly_xor]
      exact congrArg (bitPoly · _) (funext (getLsbD_lfsrStep r b W p))
    _ = _ := by rw [bitPoly_shiftConcat r b (by omega)]

/-- The register and the message differ by a multiple of the generator. -/
theorem exists_bitPoly_divideBits_add (bits : List Bool) :
    ∃ q, bitPoly (divideBits bits p W).getLsbD W + bitPoly p.getLsbD (W + 1) * q = messagePoly bits := by
  induction bits using List.reverseRecOn with
  | nil => exact ⟨0, by simp [divideBits, bitPoly, messagePoly]⟩
  | append_singleton bits b ih =>
    obtain ⟨q, hq⟩ := ih
    rw [divideBits_concat, bitPoly_lfsrStep hc, messagePoly_concat, ← hq]
    generalize bitPoly p.getLsbD (W + 1) = G
    cases ((divideBits bits p W).shiftConcat b).getLsbD W with
    | true =>
      refine ⟨X * q + 1, ?_⟩
      rw [if_pos rfl]
      linear_combination CharTwo.add_self_eq_zero G
    | false =>
      refine ⟨X * q, ?_⟩
      rw [if_neg Bool.false_ne_true]
      ring

theorem bitPoly_divideBits (bits : List Bool) :
    bitPoly (divideBits bits p W).getLsbD W = messagePoly bits %ₘ bitPoly p.getLsbD (W + 1) := by
  obtain ⟨q, hq⟩ := exists_bitPoly_divideBits_add hc bits
  have hdeg : (bitPoly (divideBits bits p W).getLsbD W).degree < (bitPoly p.getLsbD (W + 1)).degree :=
    hc.bitPoly_degree ▸ bitPoly_degree_lt _ W
  exact (div_modByMonic_unique q _ hc.bitPoly_monic ⟨hq, hdeg⟩).2.symm

end Generator

end Polynomials

/-! ### `divide` on bits -/

/-- `divide` answers exactly for a binary sequence and a width of 1 to 32, whatever the polynomial (R71). -/
theorem divide_eq_ok_iff {a r : BitSequence} {p : Poly} {W : Nat} :
    divide a p W = .ok r ↔
      ∃ bits, a = bits.map symOf ∧ (1 ≤ W ∧ W ≤ 32) ∧ remstr (divideBits bits p W) W = r := by
  have hW : (W = 0 ∨ Config.wmax < W) ↔ ¬(1 ≤ W ∧ W ≤ 32) := by unfold Config.wmax; omega
  simp only [← bitsOf?_eq_some_iff, divide, hW, ite_not]
  cases bitsOf? a with
  | none => simp
  | some bits => by_cases hw : 1 ≤ W ∧ W ≤ 32 <;> simp [hw]

/-! ### Linearity (R74 items 1 and 2) -/

theorem shiftConcat_xor (r r' : Reg) (b b' : Bool) :
    (r ^^^ r').shiftConcat (b ^^ b') = r.shiftConcat b ^^^ r'.shiftConcat b' := by
  apply BitVec.eq_of_getLsbD_eq
  intro i hi
  cases i with
  | zero => simp
  | succ i => simp only [BitVec.getLsbD_xor, getLsbD_shiftConcat_succ _ _ (Nat.lt_of_succ_lt_succ hi)]

theorem lfsrStep_xor (r r' : Reg) (b b' : Bool) (W : Nat) (p : Poly) :
    lfsrStep (r ^^^ r') (b ^^ b') W p = lfsrStep r b W p ^^^ lfsrStep r' b' W p := by
  apply BitVec.eq_of_getLsbD_eq
  intro i _
  simp only [BitVec.getLsbD_xor, getLsbD_lfsrStep, shiftConcat_xor, Bool.and_xor_distrib_right, Bool.xor_assoc,
    Bool.xor_left_comm]

theorem shiftIn_xor {a b : List Bool} (h : a.length = b.length) (r r' : Reg) (W : Nat) (p : Poly) :
    shiftIn (r ^^^ r') (List.zipWith xor a b) W p = shiftIn r a W p ^^^ shiftIn r' b W p := by
  induction a generalizing b r r' with
  | nil => cases List.eq_nil_of_length_eq_zero h.symm; rfl
  | cons x a ih =>
    cases b with
    | nil => cases h
    | cons y b =>
      rw [List.zipWith_cons_cons, shiftIn_cons, lfsrStep_xor]
      exact ih (Nat.succ.inj h) _ _

theorem divideBits_xor {a b : List Bool} (h : a.length = b.length) (W : Nat) (p : Poly) :
    divideBits (List.zipWith xor a b) p W = divideBits a p W ^^^ divideBits b p W :=
  shiftIn_xor h 0#34 0#34 W p

/-- A leading zero leaves the register at zero. -/
theorem divideBits_false_cons (bits : List Bool) (W : Nat) (p : Poly) :
    divideBits (false :: bits) p W = divideBits bits p W := by
  have h : lfsrStep 0#34 false W p = 0#34 := by
    have h0 : (0#34).shiftConcat false = 0#34 := rfl
    rw [lfsrStep_eq, h0, BitVec.getLsbD_zero]
    rfl
  rw [divideBits, shiftIn_cons, h, divideBits]

theorem xorSequence_map_symOf (a b : List Bool) :
    xorSequence (a.map symOf) (b.map symOf) = (List.zipWith xor a b).map symOf := by
  have h : ∀ x y, symOf (symOf x != symOf y) = symOf (x ^^ y) := by decide
  simp only [xorSequence, List.zipWith_map, List.map_zipWith, h]

theorem remstr_xor {n : Nat} (v v' : BitVec n) (W : Nat) :
    remstr (v ^^^ v') W = xorSequence (remstr v W) (remstr v' W) := by
  simp only [remstr_eq_map, xorSequence_map_symOf, List.zipWith_map, List.zipWith_self, BitVec.getLsbD_xor]

/-! ### Parity and the last symbols (R80) -/

/-- Under `0b11` one step adds its bit to a register of one bit. -/
theorem lfsrStep_parity : ∀ c b : Bool,
    lfsrStep (if c then 1#34 else 0#34) b 1 0b11#33 = if c ^^ b then 1#34 else 0#34 := by
  decide

/-- Under `0b11` the register is the parity of the bits. -/
theorem divideBits_parity (bits : List Bool) :
    divideBits bits 0b11#33 1 = if bits.count true % 2 = 1 then 1#34 else 0#34 := by
  induction bits using List.reverseRecOn with
  | nil => rfl
  | append_singleton bits b ih =>
    have hparity : (decide (bits.count true % 2 = 1) ^^ b) = decide ((bits ++ [b]).count true % 2 = 1) := by
      cases b with
      | false => simp
      | true => simp [← decide_not, Nat.succ_mod_two_eq_one_iff]
    have hstep := lfsrStep_parity (decide (bits.count true % 2 = 1)) b
    simp only [hparity, decide_eq_true_eq] at hstep
    rw [divideBits_concat, ih, hstep]

/-- Under `2^W` the register is a shift register: bit `i` is the bit read `i` symbols before the last. -/
theorem getLsbD_divideBits_twoPow {W : Nat} (hW : W ≤ 32) (bits : List Bool) {i : Nat} (hi : i < W) :
    (divideBits bits (BitVec.twoPow 33 W) W).getLsbD i = bits.reverse.getD i false := by
  induction bits using List.reverseRecOn generalizing i with
  | nil => simp [divideBits]
  | append_singleton bits b ih =>
    have hp : (BitVec.twoPow 33 W).getLsbD i = false := by simp [BitVec.getLsbD_twoPow]; omega
    rw [divideBits_concat, getLsbD_lfsrStep, hp, Bool.and_false, Bool.xor_false, List.reverse_concat]
    cases i with
    | zero => simp
    | succ i =>
      rw [getLsbD_shiftConcat_succ _ b (by omega), List.getD_cons_succ]
      exact ih (by omega)

/-- The last `W` symbols, padded on the left. -/
theorem remstr_divideBits_twoPow {W : Nat} (hW : W ≤ 32) (bits : List Bool) :
    remstr (divideBits bits (BitVec.twoPow 33 W) W) W =
      List.replicate (W - bits.length) 0x30#8 ++ (bits.map symOf).drop (bits.length - W) := by
  apply List.ext_getElem
  · simp; omega
  · intro k hk _
    rw [remstr_length] at hk
    have hleft : (remstr (divideBits bits (BitVec.twoPow 33 W) W) W)[k]'(by simpa) =
        symOf (bits.reverse.getD (W - 1 - k) false) := by
      simp only [remstr, List.getElem_map, List.getElem_range]
      rw [getLsbD_divideBits_twoPow hW bits (by omega)]
    rw [hleft, List.getElem_append]
    split
    case isTrue hpad =>
      rw [List.length_replicate] at hpad
      rw [List.getD_eq_default _ _ (by rw [List.length_reverse]; omega), List.getElem_replicate]
      rfl
    case isFalse hpad =>
      rw [List.length_replicate] at hpad
      rw [List.getD_eq_getElem _ _ (by rw [List.length_reverse]; omega), List.getElem_reverse, List.getElem_drop,
        List.getElem_map]
      congr 2
      rw [List.length_replicate]
      omega

/-! ### What the commands of an operation answer (R75, R76, R78) -/

theorem start_of_idle (op : Opcode) (mode : Mode) {w : Width} {p : Poly} {s : State} (hp : s.phase = .idle)
    (hc : LegalConfig w.toNat p) : start op mode w p s = openOperation mode w p s := by
  unfold start
  rw [hp, (checkConfig_eq_none_iff w p).mpr hc]

theorem exec_startInstr_of_idle (kind : StartKind) {w : Width} {p : Poly} {s : State} (hp : s.phase = .idle)
    (hc : LegalConfig w.toNat p) : exec (startInstr kind w p) s = .next (openOperation (startMode kind) w p s) := by
  obtain ⟨op, h⟩ := exec_startInstr kind w p s
  rw [h, start_of_idle op _ hp hc]

/-- The `CWSYM` words that accepted symbols are echoed as: in `ENC` mode alone (R93). -/
def echoes (mode : Mode) (syms : BitSequence) : List Word := if mode = .enc then syms.map cwsymWord else []

theorem exec_push_symOf (b : Bool) {s : State} (hp : s.phase = .run) :
    exec (.push (symOf b)) s = .next (emitAll (echoes s.mode [symOf b]) (acceptBit b s)) := by
  by_cases hm : s.mode = .enc
  · simp only [exec, execPush, hp, bitOf?_symOf, if_pos hm, echoes]
    rfl
  · simp only [exec, execPush, hp, bitOf?_symOf, if_neg hm, echoes, emitAll_nil]

/-- The word `DONE` with `ZERO` written out (R23, R54). -/
theorem doneWord_eq (mode : Mode) (width : Width) (rem : Rem) :
    doneWord mode width rem =
      0xD#4 ++ mode.bits ++ width ++ 0#3 ++ (if rem = 0#32 then 1#1 else 0#1) ++ rem := by
  have hzero : BitVec.ofBool (zeroFlag rem) = if rem = 0#32 then 1#1 else 0#1 := by
    by_cases h : rem = 0#32
    · rw [if_pos h, h]; rfl
    · rw [if_neg h, zeroFlag, beq_eq_false_iff_ne.mpr h]; rfl
  rw [doneWord, hzero]
  rfl

/-- The state after `END` has emitted `before` and reported a remainder (R78). -/
theorem finish_emitAll_eq (rem : Rem) (before : List Word) (s : State) :
    finish rem (emitAll before s) =
      { phase := .idle, mode := .none, width := 0#6, poly := 0#33, reg := 0#34, cnt := 0#6, commands := s.commands,
        responses := s.responses ++ before ++
          [0xD#4 ++ s.mode.bits ++ s.width ++ 0#3 ++ (if rem = 0#32 then 1#1 else 0#1) ++ rem] } := by
  rw [← doneWord_eq]
  rfl

theorem map_cwsymWord_remstr {n : Nat} (v : BitVec n) (W : Nat) :
    (remstr v W).map cwsymWord =
      (List.range W).map fun k => 0xC#4 ++ 0#36 ++ (if v.getLsbD (W - 1 - k) then 0x31#8 else 0x30#8) :=
  List.map_map

theorem exec_endOp_div {s : State} (hp : s.phase = .run) (hm : s.mode = .div) :
    exec .endOp s = .next (finish (remOf s.width.toNat s.reg) s) := by
  simp only [exec, execEnd, hp, hm, endDivide]

theorem exec_endOp_ver {s : State} (hp : s.phase = .run) (hm : s.mode = .ver) (hn : s.width.toNat ≤ s.cnt.toNat) :
    exec .endOp s = .next (finish (remOf s.width.toNat s.reg) s) := by
  simp only [exec, execEnd, hp, hm, endVerify, if_neg hn.not_gt]

theorem exec_endOp_enc {s : State} (hp : s.phase = .run) (hm : s.mode = .enc) (hn : s.cnt ≠ 0#6) :
    exec .endOp s =
      let rem := remOf s.width.toNat (shiftZeros s.reg s.width.toNat s.poly)
      .next (finish rem (emitAll ((remstr rem s.width.toNat).map cwsymWord) s)) := by
  simp only [exec, execEnd, hp, hm, endEncode, if_neg hn]

/-! ### The remainder of a register below `2^W` (R37) -/

theorem remOf_toNat {W : Nat} {r : Reg} (hW : W ≤ 32) (hr : r.toNat < 2 ^ W) : (remOf W r).toNat = r.toNat := by
  rw [remOf, BitVec.toNat_setWidth_of_le hW, BitVec.toNat_setWidth, Nat.mod_eq_of_lt hr]

theorem remOf_eq_ofNat {W : Nat} {r : Reg} (hW : W ≤ 32) (hr : r.toNat < 2 ^ W) :
    remOf W r = BitVec.ofNat 32 r.toNat := by
  rw [← remOf_toNat hW hr, BitVec.ofNat_toNat, BitVec.setWidth_eq]

/-- A remainder string reads the value alone, not the width of its word. -/
theorem remstr_remOf {W : Nat} {r : Reg} (hW : W ≤ 32) (hr : r.toNat < 2 ^ W) : remstr (remOf W r) W = remstr r W := by
  simp only [remstr, BitVec.getLsbD, remOf_toNat hW hr]

/-- Dividing zero bits repeats one step (R78, R94). -/
theorem shiftIn_replicate_false (r : Reg) (n W : Nat) (p : Poly) :
    shiftIn r (List.replicate n false) W p = (fun r => lfsrStep r false W p)^[n] r := by
  induction n generalizing r with
  | zero => rfl
  | succ n ih => rw [List.replicate_succ, shiftIn_cons, ih, Function.iterate_succ_apply]

/-- The remainder that `END` reports in `ENC` mode (R94). -/
theorem remOf_shiftZeros {W : Nat} {p : Poly} (hc : LegalConfig W p) {r : Reg} (hr : r.toNat < 2 ^ W) :
    remOf W (shiftZeros r W p) = BitVec.ofNat 32 ((fun r => lfsrStep r false W p)^[W] r).toNat := by
  have ⟨_, hW, _⟩ := hc
  rw [shiftZeros, remOf_eq_ofNat hW (shiftIn_lt hc _ hr), shiftIn_replicate_false]

/-! ### The body of an operation (R79, R171) -/

/-- An operation is open with this mode and configuration, and has accepted `bits`; the invariants of R28 hold. -/
structure State.InOperation (s : State) (mode : Mode) (w : Width) (p : Poly) (bits : List Bool) : Prop where
  phase : s.phase = .run
  mode : s.mode = mode
  width : s.width = w
  poly : s.poly = p
  inv : s.Inv
  tracks : s.Tracks bits

theorem openOperation_inOperation (kind : StartKind) {w : Width} {p : Poly} (hc : LegalConfig w.toNat p) (s : State) :
    (openOperation (startMode kind) w p s).InOperation (startMode kind) w p [] :=
  ⟨rfl, rfl, rfl, rfl, openOperation_inv kind hc s, openOperation_tracks_nil kind hc s⟩

section Body

variable {s : State} {mode : Mode} {w : Width} {p : Poly} {bits : List Bool} (h : s.InOperation mode w p bits)
include h

/-- The responses are no part of an open operation. -/
theorem State.InOperation.emitAll (rsps : List Word) : (emitAll rsps s).InOperation mode w p bits :=
  ⟨h.phase, h.mode, h.width, h.poly, h.inv, h.tracks⟩

/-- Nor are the waiting words. -/
theorem State.InOperation.withCommands (words : List Word) : (s.withCommands words).InOperation mode w p bits :=
  ⟨h.phase, h.mode, h.width, h.poly, h.inv, h.tracks⟩

theorem State.InOperation.acceptBit (b : Bool) : (acceptBit b s).InOperation mode w p (bits ++ [b]) :=
  ⟨h.phase, h.mode, h.width, h.poly, acceptBit_inv b h.inv h.phase, acceptBit_tracks_concat b h.inv h.phase h.tracks⟩

theorem State.InOperation.reg_lt : s.reg.toNat < 2 ^ w.toNat := by
  obtain ⟨-, -, hr, -⟩ := h.inv.2 h.phase
  rwa [h.width] at hr

theorem State.InOperation.divide_eq : divide (bits.map symOf) p w.toNat = .ok (remstr s.reg w.toNat) := by
  obtain ⟨hd, -⟩ := h.tracks h.phase
  rwa [h.width, h.poly] at hd

theorem State.InOperation.cnt_eq : s.cnt.toNat = min bits.length 32 :=
  (h.tracks h.phase).2

end Body

theorem echoes_nil (mode : Mode) : echoes mode [] = [] := ite_self []

theorem echoes_append (mode : Mode) (a b : BitSequence) : echoes mode (a ++ b) = echoes mode a ++ echoes mode b := by
  unfold echoes
  split <;> simp

theorem withoutStatus_statusWord (mode : Mode) (width : Width) (phase : Phase) (cnt : Count) :
    withoutStatus [statusWord mode width phase cnt] = [] := by
  rw [withoutStatus, List.filter_singleton, rspKind_statusWord]
  rfl

theorem withoutStatus_doneWord (mode : Mode) (width : Width) (rem : Rem) :
    withoutStatus [doneWord mode width rem] = [doneWord mode width rem] := by
  rw [withoutStatus, List.filter_singleton, rspKind_doneWord]
  rfl

theorem withoutStatus_echoes (mode : Mode) (syms : BitSequence) :
    withoutStatus (echoes mode syms) = echoes mode syms := by
  refine List.filter_eq_self.mpr fun r hr => ?_
  unfold echoes at hr
  split at hr
  · obtain ⟨sym, -, rfl⟩ := List.mem_map.mp hr
    rw [rspKind_cwsymWord]
    rfl
  · cases hr

theorem symbolsOf_cons (i : Instr) (body : List Instr) : symbolsOf (i :: body) = symbolsOf [i] ++ symbolsOf body := by
  cases i <;> rfl

/-- One command of a body: the operation goes on with the symbols it carries; `STATUS` words apart, it emits their
echo. -/
theorem exec_body {s : State} {mode : Mode} {w : Width} {p : Poly} {bits bs : List Bool} {i : Instr}
    (h : s.InOperation mode w p bits) (hi : i.isBody = true) (hbs : symbolsOf [i] = bs.map symOf) :
    ∃ t new, exec i s = .next t ∧ t.InOperation mode w p (bits ++ bs) ∧ t.responses = s.responses ++ new ∧
      withoutStatus new = echoes mode (symbolsOf [i]) := by
  cases i with
  | push sym =>
    obtain ⟨b, rfl, rfl⟩ := List.map_eq_singleton_iff.mp hbs.symm
    refine ⟨_, echoes mode [symOf b], exec_push_symOf b h.phase, (h.acceptBit b).emitAll _, ?_,
      withoutStatus_echoes ..⟩
    rw [emitAll_responses, acceptBit_responses, h.mode]
  | nop =>
    obtain rfl := List.map_eq_nil_iff.mp hbs.symm
    refine ⟨s, [], rfl, ?_, by simp, (echoes_nil mode).symm⟩
    rwa [List.append_nil]
  | stat =>
    obtain rfl := List.map_eq_nil_iff.mp hbs.symm
    refine ⟨_, [_], rfl, ?_, rfl, ?_⟩
    · rw [List.append_nil]
      exact h.emitAll [_]
    · exact (withoutStatus_statusWord ..).trans (echoes_nil mode).symm
  | div w p | enc w p | ver w p | endOp | abort => cases hi

/-- The words of a body, accepted one after the other (R79): by induction on the body, `exec_body` for each command. -/
theorem runWords_body {s : State} {mode : Mode} {w : Width} {p : Poly} {bits : List Bool} (body : List Instr)
    {bs : List Bool} (h : s.InOperation mode w p bits) (hbody : ∀ i ∈ body, i.isBody = true)
    (hbs : symbolsOf body = bs.map symOf) :
    ∃ t new, runWords (body.map encode) s = .next t ∧ t.commands = [] ∧ t.InOperation mode w p (bits ++ bs) ∧
      t.responses = s.responses ++ new ∧ withoutStatus new = echoes mode (symbolsOf body) := by
  induction body generalizing s bits bs with
  | nil =>
    obtain rfl := List.map_eq_nil_iff.mp hbs.symm
    exact ⟨s.withCommands [], [], rfl, rfl, by simpa using h.withCommands [], (List.append_nil _).symm,
      (echoes_nil mode).symm⟩
  | cons i body ih =>
    obtain ⟨hi, hbody⟩ := List.forall_mem_cons.mp hbody
    rw [symbolsOf_cons] at hbs ⊢
    obtain ⟨bs₁, bs₂, rfl, hbs₁, hbs₂⟩ := List.map_eq_append_iff.mp hbs.symm
    obtain ⟨u, new₁, hu, hopen, hnew₁, hecho₁⟩ := exec_body (h.withCommands (body.map encode)) hi hbs₁.symm
    obtain ⟨t, new₂, ht, hcommands, hopen', hnew₂, hecho₂⟩ := ih hopen hbody hbs₂.symm
    refine ⟨t, new₁ ++ new₂, ?_, hcommands, ?_, ?_, ?_⟩
    · have haccept := (acceptWord_of_decode (decode_encode i) _).trans hu
      exact (runWords_cons_next haccept (acceptWord_commands haccept)).trans ht
    · rwa [← List.append_assoc]
    · rw [hnew₂, hnew₁, List.append_assoc]
      rfl
    · rw [withoutStatus_append, hecho₁, hecho₂, echoes_append]

theorem runWords_singleton_encode {i : Instr} {s t : State} (hc : s.commands = []) (h : exec i s = .next t) :
    runWords [encode i] s = .next t := by
  have haccept : acceptWord (encode i) (s.withCommands []) = .next t := by
    rw [acceptWord_of_decode (decode_encode i), withCommands_of_eq [] hc, h]
  have ht : t.commands = [] := acceptWord_commands haccept
  rw [runWords_cons_next haccept ht, runWords_nil]
  exact congrArg Host.Outcome.next (withCommands_of_eq [] ht)

/-- A start command and a body, from `S0` (R79). -/
theorem runWords_start_body (kind : StartKind) {w : Width} {p : Poly} {body : List Instr} {bs : List Bool} {s : State}
    (hs : s.isS0) (hc : LegalConfig w.toNat p) (hbody : ∀ i ∈ body, i.isBody = true)
    (hbs : symbolsOf body = bs.map symOf) :
    ∃ t new, runWords (encode (startInstr kind w p) :: body.map encode) s = .next t ∧ t.commands = [] ∧
      t.InOperation (startMode kind) w p bs ∧
      t.responses = s.responses ++ new ∧ withoutStatus new = echoes (startMode kind) (symbolsOf body) := by
  obtain ⟨hidle, -⟩ := hs
  have haccept := (acceptWord_of_decode (decode_encode (startInstr kind w p)) _).trans
    (exec_startInstr_of_idle kind (s := s.withCommands (body.map encode)) hidle hc)
  rw [runWords_cons_next haccept rfl]
  exact runWords_body body (openOperation_inOperation kind hc _) hbody hbs

end Sys2Proof.Machine

/-! ### The statements -/

namespace Sys2Proof.Proofs

open Sys2Proof Sys2Proof.Machine

/-- Settles O19: the shifted value of R70 is the register with the bit concatenated, `lfsrStep_eq`. -/
theorem lfsrStepOnNumbers : Obligations.LfsrStepOnNumbers :=
  lfsrStep_toNat

/-- Settles O20: `lfsrStep_lt` bounds the new register; the shifted value is the register doubled, and a bit. -/
theorem registerNeverOverflows : Obligations.RegisterNeverOverflows := by
  refine fun r b w p hc hr => ⟨?_, lfsrStep_lt b hc hr⟩
  have hb := b.toNat_le
  rw [pow_succ]
  omega

/-- Settles O21: both divisions start from the register 0. -/
theorem lowBitsIgnoreHighPolynomialBits : Obligations.LowBitsIgnoreHighPolynomialBits :=
  fun bits _ _ _ _ hpq => shiftIn_agreeBelow hpq bits fun _ _ => rfl

/-- Settles O22: the register has a degree below the generator's, and differs from the message by a multiple of it. -/
theorem divideIsPolynomialRemainder : Obligations.DivideIsPolynomialRemainder :=
  fun bits _ _ hc => bitPoly_divideBits hc bits

/-- Settles O23, on the bits that the two sequences spell. -/
theorem divideIsLinear : Obligations.DivideIsLinear := by
  intro a b ra rb w p hlen ha hb
  obtain ⟨as, rfl, hw, rfl⟩ := divide_eq_ok_iff.mp ha
  obtain ⟨bs, rfl, -, rfl⟩ := divide_eq_ok_iff.mp hb
  rw [List.length_map, List.length_map] at hlen
  refine ⟨divide_eq_ok_iff.mpr ⟨_, xorSequence_map_symOf as bs, hw, ?_⟩,
    divide_eq_ok_iff.mpr ⟨false :: as, rfl, hw, ?_⟩⟩
  · rw [divideBits_xor hlen, remstr_xor]
  · rw [divideBits_false_cons]

/-- Settles O24: under `0b11` the register is the parity, under `2^W` it is a shift register. -/
theorem parityAndLastSymbolCodes : Obligations.ParityAndLastSymbolCodes := by
  refine ⟨fun bits bs h => ?_, fun bits bs w h hlo hhi => ?_⟩ <;>
    obtain rfl := (bitsOf?_eq_some_iff bits bs).mp h
  · refine divide_eq_ok_iff.mpr ⟨bs, rfl, by decide, ?_⟩
    rw [divideBits_parity]
    split <;> rfl
  · refine divide_eq_ok_iff.mpr ⟨bs, rfl, ⟨hlo, hhi⟩, ?_⟩
    rw [List.length_map, remstr_divideBits_twoPow hhi]

/-- Settles O28, mode by mode. -/
theorem endReportsTheRemainder : Obligations.EndReportsTheRemainder := by
  intro s hs hp
  obtain ⟨-, hc, hr, -⟩ := hs.2 hp
  have ⟨_, hW, _⟩ := hc
  refine ⟨fun hm => ?_, fun hm hn => ?_, fun hm hn => ?_⟩
  · simp only [exec_endOp_div hp hm, remOf_eq_ofNat hW hr, ← finish_emitAll_eq, emitAll_nil]
  · simp only [exec_endOp_ver hp hm hn, remOf_eq_ofNat hW hr, ← finish_emitAll_eq, emitAll_nil]
  · simp only [exec_endOp_enc hp hm hn, remOf_shiftZeros hc hr, finish_emitAll_eq, map_cwsymWord_remstr]

/-- Settles O29: the register and the counter of an open operation are those of the symbols it has accepted. -/
theorem commandsComputeDivide : Obligations.CommandsComputeDivide := by
  intro kind w p body bs s hs hc hbody hbs
  have hsyms := (bitsOf?_eq_some_iff _ _).mp hbs
  obtain ⟨t, -, hrun, hcommands, hopen, -, -⟩ := runWords_start_body kind hs hc hbody hsyms
  rw [hsyms, List.length_map]
  exact ⟨t, hrun, hopen.phase, hopen.mode, hopen.width, hopen.poly, hcommands, hopen.divide_eq, hopen.reg_lt,
    hopen.cnt_eq⟩

/-- Settles O30: the start command and the body emit `STATUS` words alone, and `END` reports the register. -/
theorem divOperationComputesDivide : Obligations.DivOperationComputesDivide := by
  intro w p body bs s hs hc hbody hbs
  have hsyms := (bitsOf?_eq_some_iff _ _).mp hbs
  obtain ⟨t, new, hrun, hcommands, hopen, hnew, hecho⟩ := runWords_start_body .div hs hc hbody hsyms
  have ⟨_, hW, _⟩ := hc
  have hend := exec_endOp_div hopen.phase hopen.mode
  rw [hopen.width] at hend
  refine ⟨_, new ++ [doneWord .div w (remOf w.toNat t.reg)], remOf w.toNat t.reg,
    (runWords_append [encode .endOp] hrun).trans (runWords_singleton_encode hcommands hend), toIdle_isS0 _,
    ?_, ?_, ?_, ?_⟩
  · rw [finish_responses, hnew, hopen.mode, hopen.width, List.append_assoc]
    rfl
  · rw [withoutStatus_append, hecho, withoutStatus_doneWord]
    rfl
  · rw [remOf_toNat hW hopen.reg_lt]
    exact hopen.reg_lt
  · rw [hsyms, remstr_remOf hW hopen.reg_lt]
    exact hopen.divide_eq

/-- Settles O25: a legal configuration passes the check, whichever start command carries it. -/
theorem startCommandsOpenTheOperation : Obligations.StartCommandsOpenTheOperation :=
  fun _ _ _ hp hc => ⟨exec_startInstr_of_idle .div hp hc, exec_startInstr_of_idle .enc hp hc,
    exec_startInstr_of_idle .ver hp hc⟩

/-- Settles O27: in `ENC` mode the trace grows by the echo, in the others `exec_push_symOf` emits the empty list. -/
theorem pushAcceptsABinarySymbol : Obligations.PushAcceptsABinarySymbol := by
  rintro _ b s hp rfl
  refine (exec_push_symOf b hp).trans (congrArg _ ?_)
  by_cases hm : s.mode = .enc
  · simp only [echoes, if_pos hm]
    rfl
  · simp only [echoes, if_neg hm, emitAll_nil]
    rfl

end Sys2Proof.Proofs

/-! Proofs, family "The encoder": `encode` and `verify` on bits, the round trip by linearity, what an operation answers
after a failure and at its `END`; then the statements of 41_encoder.md. -/

namespace Sys2Proof.Machine

/-! ### `encode` on bits (R90) -/

/-- The register after the data and `W` zeros, whose string is the CRC. -/
def crcRegister (bits : List Bool) (p : Poly) (W : Nat) : Reg := divideBits (bits ++ List.replicate W false) p W

theorem crcRegister_eq (bits : List Bool) (p : Poly) (W : Nat) :
    crcRegister bits p W = shiftZeros (divideBits bits p W) W p :=
  shiftIn_append ..

theorem crcRegister_lt {W : Nat} {p : Poly} (hc : LegalConfig W p) (bits : List Bool) :
    (crcRegister bits p W).toNat < 2 ^ W :=
  divideBits_lt hc _

/-- The sequence that `encode` divides. -/
theorem map_symOf_append_zeros (bits : List Bool) (W : Nat) :
    bits.map symOf ++ zeros W = (bits ++ List.replicate W false).map symOf := by
  rw [zeros_eq_map, List.map_append]

theorem divide_eq_invalidInput_iff {a : BitSequence} {p : Poly} {W : Nat} :
    divide a p W = .error .invalidInput ↔ bitsOf? a = none := by
  unfold divide
  cases bitsOf? a with
  | none => simp
  | some bits => by_cases hw : W = 0 ∨ Config.wmax < W <;> simp [hw]

/-- The data that `encode` does not refuse as input. -/
theorem valid_data_iff {data : BitSequence} :
    ¬(data = [] ∨ bitsOf? data = none) ↔ ∃ bits, bits ≠ [] ∧ data = bits.map symOf := by
  constructor
  · intro h
    obtain ⟨hne, hbin⟩ := not_or.mp h
    obtain ⟨bits, hbits⟩ := Option.ne_none_iff_exists'.mp hbin
    obtain rfl := (bitsOf?_eq_some_iff _ _).mp hbits
    exact ⟨bits, fun h0 => hne (congrArg _ h0), rfl⟩
  · rintro ⟨bits, hne, rfl⟩
    simpa using hne

theorem encodeData_eq_invalidInput_iff {data : BitSequence} {p : Poly} {W : Nat} :
    encodeData data p W = .error .invalidInput ↔ data = [] ∨ bitsOf? data = none := by
  unfold encodeData
  split
  case isTrue h => exact iff_of_true rfl h
  case isFalse h =>
    refine iff_of_false (fun herr => ?_) h
    obtain ⟨bits, -, rfl⟩ := valid_data_iff.mp h
    rw [map_symOf_append_zeros] at herr
    split at herr
    case h_1 e hd =>
      have hnone := divide_eq_invalidInput_iff.mp (hd.trans (congrArg _ (Except.error.inj herr)))
      rw [bitsOf?_map_symOf] at hnone
      cases hnone
    case h_2 => cases herr

/-- `encode` answers exactly for a non-empty binary sequence and a width of 1 to 32; the CRC is the remainder of the data
with `W` zeros appended. -/
theorem encodeData_eq_ok_iff {data : BitSequence} {p : Poly} {W : Nat} {r : EncodeResult} :
    encodeData data p W = .ok r ↔
      ∃ bits, bits ≠ [] ∧ data = bits.map symOf ∧ (1 ≤ W ∧ W ≤ 32) ∧
        r = ⟨remstr (crcRegister bits p W) W, data ++ remstr (crcRegister bits p W) W⟩ := by
  constructor
  · intro h
    have hin : ¬(data = [] ∨ bitsOf? data = none) := fun hbad => by
      cases h.symm.trans (encodeData_eq_invalidInput_iff.mpr hbad)
    obtain ⟨bits, hne, rfl⟩ := valid_data_iff.mp hin
    rw [encodeData, if_neg hin, map_symOf_append_zeros] at h
    split at h
    case h_1 => cases h
    case h_2 crc hd =>
      obtain ⟨bits', heq, hW, rfl⟩ := divide_eq_ok_iff.mp hd
      obtain rfl := List.map_injective_iff.mpr (fun _ _ => symOf_injective) heq
      exact ⟨bits, hne, rfl, hW, (Except.ok.inj h).symm⟩
  · rintro ⟨bits, hne, rfl, hW, rfl⟩
    rw [encodeData, if_neg (valid_data_iff.mpr ⟨bits, hne, rfl⟩), map_symOf_append_zeros,
      divide_eq_ok_iff.mpr ⟨_, rfl, hW, rfl⟩]
    rfl

theorem encodeData_codeword_length {data : BitSequence} {p : Poly} {W : Nat} {r : EncodeResult}
    (h : encodeData data p W = .ok r) : r.codeword.length = data.length + W := by
  obtain ⟨_, -, -, -, rfl⟩ := encodeData_eq_ok_iff.mp h
  rw [List.length_append, remstr_length]

/-- Under a legal width the only failure is `InvalidInput` (R96). -/
theorem encodeData_invalidInput_or_ok (data : BitSequence) (p : Poly) {W : Nat} (hW : 1 ≤ W ∧ W ≤ 32) :
    encodeData data p W = .error .invalidInput ∨ ∃ r, encodeData data p W = .ok r := by
  by_cases h : data = [] ∨ bitsOf? data = none
  · exact .inl (encodeData_eq_invalidInput_iff.mpr h)
  · obtain ⟨bits, hne, rfl⟩ := valid_data_iff.mp h
    exact .inr ⟨_, encodeData_eq_ok_iff.mpr ⟨bits, hne, rfl, hW, rfl⟩⟩

theorem verify_of_divide {c r : BitSequence} {p : Poly} {W : Nat} (hn : W ≤ c.length) (hd : divide c p W = .ok r) :
    verify c p W = .ok ⟨r, allZeros r⟩ := by
  obtain ⟨bits, rfl, -⟩ := divide_eq_ok_iff.mp hd
  have hin : ¬((bits.map symOf).length < W ∨ bitsOf? (bits.map symOf) = none) :=
    not_or.mpr ⟨hn.not_gt, by simp⟩
  rw [verify, if_neg hin, hd]

/-! ### The round trip (R95) -/

/-- Up to `W` bits are the register's low bits: nothing is subtracted. -/
theorem getLsbD_divideBits_of_length_le {bits : List Bool} {W : Nat} (hW : W ≤ 32) (hn : bits.length ≤ W) (p : Poly)
    {i : Nat} (hi : i < 34) : (divideBits bits p W).getLsbD i = bits.reverse.getD i false := by
  induction bits using List.reverseRecOn generalizing i with
  | nil => simp [divideBits]
  | append_singleton bits b ih =>
    rw [List.length_append, List.length_singleton] at hn
    have hshift : ∀ j < 34, ((divideBits bits p W).shiftConcat b).getLsbD j = (b :: bits.reverse).getD j false := by
      intro j hj
      cases j with
      | zero => simp
      | succ j => rw [getLsbD_shiftConcat_succ _ b (by omega), List.getD_cons_succ, ih (by omega) (by omega)]
    have htop : ((divideBits bits p W).shiftConcat b).getLsbD W = false := by
      rw [hshift W (by omega), List.getD_eq_default]
      simpa using hn
    rw [divideBits_concat, getLsbD_lfsrStep, htop, Bool.false_and, Bool.xor_false, hshift i hi, List.reverse_concat]

/-- A sequence of `W` symbols is its own remainder (R104), as it is under the generator `2^W`. -/
theorem remstr_divideBits_of_length_eq {bits : List Bool} {W : Nat} (hW : W ≤ 32) (hn : bits.length = W) (p : Poly) :
    remstr (divideBits bits p W) W = bits.map symOf := by
  have htwo : divideBits bits p W = divideBits bits (BitVec.twoPow 33 W) W :=
    BitVec.eq_of_getLsbD_eq fun i hi => by
      rw [getLsbD_divideBits_of_length_le hW hn.le p hi, getLsbD_divideBits_of_length_le hW hn.le _ hi]
  rw [htwo, remstr_divideBits_twoPow hW, hn, Nat.sub_self]
  rfl

/-- Dividing on from a register is dividing zeros on from it, and adding the division of the bits alone. -/
theorem shiftIn_eq_xor (r : Reg) (bits : List Bool) (W : Nat) (p : Poly) :
    shiftIn r bits W p = shiftIn r (List.replicate bits.length false) W p ^^^ divideBits bits p W := by
  have hzip : List.zipWith xor (List.replicate bits.length false) bits = bits := List.ext_getElem (by simp) (by simp)
  have h := shiftIn_xor (a := List.replicate bits.length false) (b := bits) List.length_replicate r 0#34 W p
  rwa [BitVec.xor_zero, hzip] at h

theorem remstr_zero (n W : Nat) : remstr (0#n) W = zeros W := by
  simp [remstr, zeros, symOf]

theorem xorSequence_self_map_symOf (bits : List Bool) :
    xorSequence (bits.map symOf) (bits.map symOf) = zeros bits.length := by
  simp [xorSequence_map_symOf, zeros_eq_map]

/-- Dividing on by the remainder itself: by linearity the remainder is added to itself. -/
theorem remstr_shiftIn_crc {r : Reg} {crc : List Bool} {W : Nat} {p : Poly} (hW : W ≤ 32)
    (hcrc : remstr (shiftZeros r W p) W = crc.map symOf) : remstr (shiftIn r crc W p) W = zeros W := by
  have hlen : crc.length = W := by rw [← List.length_map symOf, ← hcrc, remstr_length]
  calc remstr (shiftIn r crc W p) W
    _ = remstr (shiftZeros r W p ^^^ divideBits crc p W) W := by rw [shiftIn_eq_xor, hlen, shiftZeros]
    _ = xorSequence (crc.map symOf) (crc.map symOf) := by
      rw [remstr_xor, hcrc, remstr_divideBits_of_length_eq hW hlen]
    _ = zeros W := by rw [xorSequence_self_map_symOf, hlen]

/-- R95, whatever the polynomial. -/
theorem divide_codeword {data : BitSequence} {p : Poly} {W : Nat} {r : EncodeResult} (h : encodeData data p W = .ok r) :
    divide r.codeword p W = .ok (zeros W) := by
  obtain ⟨bits, -, rfl, hW, rfl⟩ := encodeData_eq_ok_iff.mp h
  obtain ⟨crc, hcrc⟩ : ∃ crc : List Bool, remstr (crcRegister bits p W) W = crc.map symOf :=
    ⟨_, remstr_eq_map _ W⟩
  refine divide_eq_ok_iff.mpr ⟨bits ++ crc, by rw [hcrc, List.map_append], hW, ?_⟩
  rw [crcRegister_eq] at hcrc
  rw [divideBits, shiftIn_append]
  exact remstr_shiftIn_crc hW.2 hcrc

/-! ### A whole operation (R97, R171) -/

/-- A start command, a body and `END`, where the body is run and `END` answers. -/
theorem runWords_operation {kind : StartKind} {w : Width} {p : Poly} {body : List Instr} {s t u : State}
    (hrun : runWords (encode (startInstr kind w p) :: body.map encode) s = .next t) (hc : t.commands = [])
    (hend : exec .endOp t = .next u) : runWords (operationWords kind w p body) s = .next u :=
  (runWords_append [encode .endOp] hrun).trans (runWords_singleton_encode hc hend)

theorem operationWords_eq (kind : StartKind) (w : Width) (p : Poly) (body : List Instr) :
    operationWords kind w p body = encode (startInstr kind w p) :: (body ++ [Instr.endOp]).map encode := by
  rw [operationWords, List.map_append, List.map_singleton]

theorem withoutStatus_errWord (mode : Mode) (sym : Symbol) (op : Opcode) (cause : Cause) :
    withoutStatus [errWord mode sym op cause] = [errWord mode sym op cause] := by
  rw [withoutStatus, List.filter_singleton, rspKind_errWord]
  rfl

theorem mem_withoutStatus {r : Word} {rsps : List Word} :
    r ∈ withoutStatus rsps ↔ r ∈ rsps ∧ rspKind r ≠ kindStatus := by
  simp [withoutStatus]

theorem rspCause_errWord (mode : Mode) (sym : Symbol) (op : Opcode) (cause : Cause) :
    rspCause (errWord mode sym op cause) = cause.byte :=
  BitVec.extractLsb'_append_eq_right

theorem echoes_enc (syms : BitSequence) : echoes .enc syms = syms.map cwsymWord := rfl

theorem echoes_of_ne_enc {mode : Mode} (hm : mode ≠ .enc) (syms : BitSequence) : echoes mode syms = [] := if_neg hm

theorem rspKind_of_mem_echoes {r : Word} {mode : Mode} {syms : BitSequence} (h : r ∈ echoes mode syms) :
    rspKind r = kindCwsym := by
  unfold echoes at h
  split at h
  · obtain ⟨sym, -, rfl⟩ := List.mem_map.mp h
    exact rspKind_cwsymWord sym
  · cases h

theorem cwsymSymbols_append (a b : List Word) : cwsymSymbols (a ++ b) = cwsymSymbols a ++ cwsymSymbols b := by
  simp [cwsymSymbols]

theorem cwsymSymbols_map_cwsymWord (syms : BitSequence) : cwsymSymbols (syms.map cwsymWord) = syms := by
  simp [cwsymSymbols, List.filter_map, Function.comp_def, rspKind_cwsymWord, rspSym_cwsymWord]

theorem cwsymSymbols_doneWord (mode : Mode) (width : Width) (rem : Rem) :
    cwsymSymbols [doneWord mode width rem] = [] := by
  rw [cwsymSymbols, List.filter_singleton, rspKind_doneWord]
  rfl

/-- `STATUS` words carry no symbol of a codeword. -/
theorem cwsymSymbols_withoutStatus (rsps : List Word) : cwsymSymbols (withoutStatus rsps) = cwsymSymbols rsps := by
  have hkind : ∀ k : BitVec 4, (k == kindCwsym && !(k == kindStatus)) = (k == kindCwsym) := by decide
  simp only [cwsymSymbols, withoutStatus, List.filter_filter, hkind]

/-- The codeword read from the trace of an encoding (R97). -/
theorem cwsymSymbols_of_trace {new : List Word} {syms : BitSequence} {mode : Mode} {width : Width} {rem : Rem}
    (h : withoutStatus new = syms.map cwsymWord ++ [doneWord mode width rem]) : cwsymSymbols new = syms := by
  rw [← cwsymSymbols_withoutStatus, h, cwsymSymbols_append, cwsymSymbols_map_cwsymWord, cwsymSymbols_doneWord,
    List.append_nil]

/-- A run has one final state, and so one list of new responses. -/
theorem runWords_unique {words : List Word} {s t t' : State} {new new' : List Word} (h : runWords words s = .next t)
    (hnew : t.responses = s.responses ++ new) (h' : runWords words s = .next t')
    (hnew' : t'.responses = s.responses ++ new') : t = t' ∧ new = new' := by
  obtain rfl := Host.Outcome.next.inj (h.symm.trans h')
  exact ⟨rfl, List.append_cancel_left (hnew.symm.trans hnew')⟩

theorem startMode_ne_enc {kind : StartKind} (h : kind ≠ .enc) : startMode kind ≠ .enc := by
  cases kind with
  | enc => exact absurd rfl h
  | div | ver => nofun

theorem State.InOperation.reg_eq {s : State} {mode : Mode} {w : Width} {p : Poly} {bits : List Bool}
    (h : s.InOperation mode w p bits) : s.reg = divideBits bits p w.toNat := by
  obtain ⟨hreg, -⟩ := (State.tracks_iff h.inv h.phase bits).mp h.tracks
  rwa [h.width, h.poly] at hreg

/-- `END` of an encoding reports the remainder of the accepted bits with `W` zeros appended (R94). -/
theorem exec_endOp_encoding {s : State} {w : Width} {p : Poly} {bits : List Bool}
    (h : s.InOperation .enc w p bits) (hne : bits ≠ []) :
    exec .endOp s = .next (finish (remOf w.toNat (crcRegister bits p w.toNat))
      (emitAll ((remstr (crcRegister bits p w.toNat) w.toNat).map cwsymWord) s)) := by
  have hcnt : s.cnt ≠ 0#6 := by
    intro h0
    have hlen := h.cnt_eq
    have hpos := List.length_pos_iff.mpr hne
    rw [h0, BitVec.toNat_ofNat] at hlen
    omega
  obtain ⟨-, hc, -⟩ := h.inv.2 h.phase
  rw [h.width, h.poly] at hc
  have ⟨_, hW, _⟩ := hc
  have hcrc : shiftZeros s.reg w.toNat p = crcRegister bits p w.toNat := by
    rw [crcRegister_eq, h.reg_eq]
  simp only [exec_endOp_enc h.phase h.mode hcnt, h.width, h.poly, hcrc, remstr_remOf hW (crcRegister_lt hc bits)]

/-- `END` of an encoding without data (R94). -/
theorem exec_endOp_encoding_nil {s : State} {w : Width} {p : Poly} (h : s.InOperation .enc w p []) :
    exec .endOp s = .next (raise 0x5#4 .emptyData 0#8 s) := by
  have hcnt : s.cnt = 0#6 := BitVec.eq_of_toNat_eq h.cnt_eq
  simp only [exec, execEnd, h.phase, h.mode, endEncode, if_pos hcnt]

/-- `END` of a division, or of a verification that is long enough, reports the register (R78, R102). -/
theorem exec_endOp_of_ne_enc {s : State} {kind : StartKind} {w : Width} {p : Poly} {bits : List Bool}
    (h : s.InOperation (startMode kind) w p bits) (hkind : kind ≠ .enc) (hw : w.toNat ≤ 32)
    (hn : w.toNat ≤ bits.length) : exec .endOp s = .next (finish (remOf w.toNat (divideBits bits p w.toNat)) s) := by
  rw [← h.reg_eq, ← h.width]
  cases kind with
  | div => exact exec_endOp_div h.phase h.mode
  | enc => exact absurd rfl hkind
  | ver =>
    refine exec_endOp_ver h.phase h.mode ?_
    rw [h.cnt_eq, h.width]
    exact le_min hn hw

/-! ### After a failure (R173) -/

theorem exec_push_of_idle (sym : Symbol) {s : State} (hp : s.phase = .idle) :
    exec (.push sym) s = .next (raise 0x4#4 .notRunning 0#8 s) := by
  simp only [exec, execPush, hp]

theorem exec_endOp_of_idle {s : State} (hp : s.phase = .idle) :
    exec .endOp s = .next (raise 0x5#4 .notRunning 0#8 s) := by
  simp only [exec, execEnd, hp]

theorem exec_push_nonbinary {sym : Symbol} {s : State} (hp : s.phase = .run) (hsym : bitOf? sym = none) :
    exec (.push sym) s = .next (raise 0x4#4 .nonbinarySymbol sym s) := by
  simp only [exec, execPush, hp, hsym]

/-- What commands queued behind a failure answer, `STATUS` words apart: one `NOT_RUNNING` for each `PUSH` and `END`. -/
def notRunningErrors (cmds : List Instr) : List Word :=
  (cmds.filter fun i => !i.isTransparent).map fun i => errWord .none 0#8 i.opcode .notRunning

theorem notRunningErrors_append (a b : List Instr) :
    notRunningErrors (a ++ b) = notRunningErrors a ++ notRunningErrors b := by
  simp [notRunningErrors]

/-- One such command: the core stays in `S0`. -/
theorem exec_queued {i : Instr} {s : State} (hs : s.isS0) (hi : i.isBody = true ∨ i = .endOp) :
    ∃ t new, exec i s = .next t ∧ t.isS0 ∧ t.responses = s.responses ++ new ∧
      withoutStatus new = notRunningErrors [i] := by
  have ⟨hp, hm, _⟩ := hs
  have hraise : ∀ op, withoutStatus [errWord s.mode 0#8 op .notRunning] = [errWord .none 0#8 op .notRunning] :=
    fun op => by rw [withoutStatus_errWord, hm]
  cases i with
  | push sym => exact ⟨_, [_], exec_push_of_idle sym hp, toIdle_isS0 _, rfl, hraise _⟩
  | nop => exact ⟨s, [], rfl, hs, (List.append_nil _).symm, rfl⟩
  | stat => exact ⟨_, [_], rfl, hs, rfl, withoutStatus_statusWord ..⟩
  | endOp => exact ⟨_, [_], exec_endOp_of_idle hp, toIdle_isS0 _, rfl, hraise _⟩
  | div w p | enc w p | ver w p | abort => simp [Instr.isBody] at hi

theorem runWords_queued (cmds : List Instr) {s : State} (hs : s.isS0)
    (hcmds : ∀ i ∈ cmds, i.isBody = true ∨ i = .endOp) :
    ∃ t new, runWords (cmds.map encode) s = .next t ∧ t.isS0 ∧ t.responses = s.responses ++ new ∧
      withoutStatus new = notRunningErrors cmds := by
  induction cmds generalizing s with
  | nil => exact ⟨s.withCommands [], [], rfl, hs, (List.append_nil _).symm, rfl⟩
  | cons i cmds ih =>
    obtain ⟨hi, hcmds⟩ := List.forall_mem_cons.mp hcmds
    obtain ⟨u, new₁, hu, hidle, hnew₁, herr₁⟩ := exec_queued (s := s.withCommands (cmds.map encode)) hs hi
    obtain ⟨t, new₂, ht, hidle', hnew₂, herr₂⟩ := ih hidle hcmds
    have haccept := (acceptWord_of_decode (decode_encode i) _).trans hu
    refine ⟨t, new₁ ++ new₂, (runWords_cons_next haccept (acceptWord_commands haccept)).trans ht, hidle', ?_, ?_⟩
    · rw [hnew₂, hnew₁, List.append_assoc]
      rfl
    · rw [withoutStatus_append, herr₁, herr₂, ← notRunningErrors_append, List.singleton_append]

/-- A body whose symbols are not all binary has a first `PUSH` of a non-binary one. -/
theorem exists_first_nonbinary {body : List Instr} (h : bitsOf? (symbolsOf body) = none) :
    ∃ (before after : List Instr) (sym : Symbol) (bs : List Bool),
      body = before ++ .push sym :: after ∧ symbolsOf before = bs.map symOf ∧ bitOf? sym = none := by
  induction body with
  | nil => cases h
  | cons i body ih =>
    cases hi : bitsOf? (symbolsOf [i]) with
    | none =>
      cases i with
      | push sym =>
        refine ⟨[], body, sym, [], rfl, rfl, ?_⟩
        cases hsym : bitOf? sym with
        | none => rfl
        | some b => simp [symbolsOf, bitsOf?, hsym] at hi
      | _ => cases hi
    | some bs₁ =>
      have hbody : bitsOf? (symbolsOf body) = none := by
        cases hb : bitsOf? (symbolsOf body) with
        | none => rfl
        | some bs₂ =>
          rw [symbolsOf_cons, bitsOf?_append hi hb] at h
          cases h
      obtain ⟨before, after, sym, bs, rfl, hbs, hsym⟩ := ih hbody
      refine ⟨i :: before, after, sym, bs₁ ++ bs, rfl, ?_, hsym⟩
      rw [symbolsOf_cons, hbs, (bitsOf?_eq_some_iff _ _).mp hi, List.map_append]

/-- A command that raises, and what is queued behind it. -/
theorem runWords_raise_queued {i : Instr} {op : Opcode} {cause : Cause} {sym : Symbol} {s : State}
    (h : exec i s = .next (raise op cause sym s)) {queued : List Instr}
    (hqueued : ∀ j ∈ queued, j.isBody = true ∨ j = .endOp) :
    ∃ t new, runWords (encode i :: queued.map encode) s = .next t ∧ t.isS0 ∧ t.responses = s.responses ++ new ∧
      withoutStatus new = errWord s.mode sym op cause :: notRunningErrors queued := by
  have haccept := (acceptWord_of_decode (decode_encode i) _).trans (exec_withCommands (queued.map encode) h)
  obtain ⟨t, new, hrun, hidle, hnew, herr⟩ :=
    runWords_queued queued (s := (raise op cause sym s).withCommands (queued.map encode))
      ⟨rfl, rfl, rfl, rfl, rfl, rfl⟩ hqueued
  refine ⟨t, errWord s.mode sym op cause :: new, (runWords_cons_next haccept rfl).trans hrun, hidle, ?_, ?_⟩
  · rw [hnew, List.append_cons]
    rfl
  · rw [← List.singleton_append, withoutStatus_append, withoutStatus_errWord, herr, List.singleton_append]

/-- An operation from `S0` that fails at its command `i`, after the binary symbols of `before` (R171). -/
theorem runWords_operation_raise (kind : StartKind) {w : Width} {p : Poly} {before queued : List Instr} {i : Instr}
    {bs : List Bool} {op : Opcode} {cause : Cause} {sym : Symbol} {s : State} (hs : s.isS0) (hc : LegalConfig w.toNat p)
    (hbefore : ∀ j ∈ before, j.isBody = true) (hbs : symbolsOf before = bs.map symOf)
    (hraise : ∀ t : State, t.InOperation (startMode kind) w p bs → exec i t = .next (raise op cause sym t))
    (hqueued : ∀ j ∈ queued, j.isBody = true ∨ j = .endOp) :
    ∃ t new, runWords (encode (startInstr kind w p) :: (before ++ i :: queued).map encode) s = .next t ∧ t.isS0 ∧
      t.responses = s.responses ++ new ∧
      withoutStatus new = echoes (startMode kind) (symbolsOf before) ++
        errWord (startMode kind) sym op cause :: notRunningErrors queued := by
  obtain ⟨t, new₁, hrun, -, hopen, hnew₁, hecho⟩ := runWords_start_body kind hs hc hbefore hbs
  obtain ⟨u, new₂, hfail, hidle, hnew₂, herr⟩ := runWords_raise_queued (hraise t hopen) hqueued
  refine ⟨u, new₁ ++ new₂, ?_, hidle, ?_, ?_⟩
  · rw [List.map_append, ← List.cons_append]
    exact (runWords_append _ hrun).trans hfail
  · rw [hnew₂, hnew₁, List.append_assoc]
  · rw [withoutStatus_append, hecho, herr, hopen.mode]

/-- What the trace of such an operation says: an `ERR` with the cause, and no `DONE`. -/
theorem noDone_of_raise_trace {new : List Word} {mode mode' : Mode} {syms : BitSequence} {sym : Symbol} {op : Opcode}
    {cause : Cause} {queued : List Instr}
    (h : withoutStatus new = echoes mode syms ++ errWord mode' sym op cause :: notRunningErrors queued) :
    (∀ r ∈ new, rspKind r ≠ kindDone) ∧ ∃ r ∈ new, rspKind r = kindErr ∧ rspCause r = cause.byte := by
  constructor
  · intro r hr hkind
    have hmem : r ∈ withoutStatus new := mem_withoutStatus.mpr ⟨hr, by rw [hkind]; decide⟩
    rw [h, List.mem_append, List.mem_cons] at hmem
    obtain hecho | rfl | herr := hmem
    · cases (rspKind_of_mem_echoes hecho).symm.trans hkind
    · cases (rspKind_errWord ..).symm.trans hkind
    · obtain ⟨i, -, rfl⟩ := List.mem_map.mp herr
      cases (rspKind_errWord ..).symm.trans hkind
  · have hmem : errWord mode' sym op cause ∈ withoutStatus new := h ▸ List.mem_append_right _ List.mem_cons_self
    exact ⟨_, (mem_withoutStatus.mp hmem).1, rspKind_errWord .., rspCause_errWord ..⟩

/-! ### Pushing a sequence (R76) -/

/-- `PUSH` commands alone emit no `STATUS` word. -/
theorem runWords_pushes {s : State} {mode : Mode} {w : Width} {p : Poly} {bits : List Bool} (bs : List Bool)
    (h : s.InOperation mode w p bits) :
    ∃ t, runWords (((bs.map symOf).map Instr.push).map encode) s = .next t ∧ t.commands = [] ∧
      t.InOperation mode w p (bits ++ bs) ∧ t.responses = s.responses ++ echoes mode (bs.map symOf) := by
  induction bs generalizing s bits with
  | nil =>
    refine ⟨s.withCommands [], rfl, rfl, by simpa using h.withCommands [], ?_⟩
    rw [List.map_nil, echoes_nil, List.append_nil]
    rfl
  | cons b bs ih =>
    have haccept := (acceptWord_of_decode (decode_encode (.push (symOf b))) _).trans
      (exec_push_symOf b (s := s.withCommands (((bs.map symOf).map Instr.push).map encode)) h.phase)
    obtain ⟨t, ht, hcommands, hopen, hnew⟩ := ih (((h.withCommands _).acceptBit b).emitAll _)
    refine ⟨t, (runWords_cons_next haccept rfl).trans ht, hcommands, ?_, ?_⟩
    · rwa [List.append_assoc] at hopen
    · rw [hnew, emitAll_responses, withCommands_mode, h.mode, List.append_assoc, ← echoes_append]
      rfl

/-- A division or verification of at least `W` pushed bits, from `S0`, emits its `DONE` alone. -/
theorem runWords_operation_pushes {kind : StartKind} (hkind : kind ≠ .enc) {w : Width} {p : Poly} {bits : List Bool}
    {s : State} (hs : s.isS0) (hc : LegalConfig w.toNat p) (hn : w.toNat ≤ bits.length) :
    ∃ t, runWords (operationWords kind w p ((bits.map symOf).map Instr.push)) s = .next t ∧ t.isS0 ∧
      t.responses = s.responses ++ [doneWord (startMode kind) w (remOf w.toNat (divideBits bits p w.toNat))] := by
  have ⟨hidle, _⟩ := hs
  have ⟨_, hW, _⟩ := hc
  have haccept := (acceptWord_of_decode (decode_encode (startInstr kind w p)) _).trans
    (exec_startInstr_of_idle kind (s := s.withCommands (((bits.map symOf).map Instr.push).map encode)) hidle hc)
  obtain ⟨t, hrun, hcommands, hopen, hnew⟩ := runWords_pushes bits (openOperation_inOperation kind hc _)
  have hend := exec_endOp_of_ne_enc hopen hkind hW hn
  refine ⟨_, runWords_operation ((runWords_cons_next haccept rfl).trans hrun) hcommands hend, toIdle_isS0 _, ?_⟩
  rw [finish_responses, hnew, echoes_of_ne_enc (startMode_ne_enc hkind), List.append_nil, hopen.mode, hopen.width]
  rfl

theorem remOf_zero (W : Nat) : remOf W 0#34 = 0#32 := by
  simp [remOf]

/-- A register below `2^W` whose string is all zeros is zero. -/
theorem divideBits_eq_zero {W : Nat} {p : Poly} (hc : LegalConfig W p) {bits : List Bool}
    (h : divide (bits.map symOf) p W = .ok (zeros W)) : divideBits bits p W = 0#34 := by
  rw [divide_map_symOf hc, ← remstr_zero 34] at h
  exact remstr_injOn (divideBits_lt hc bits) (Nat.two_pow_pos W) (Except.ok.inj h)

/-- Under a legal configuration the codeword spells at least `W` bits, which leave the register zero. -/
theorem exists_codeword_bits {W : Nat} {p : Poly} (hc : LegalConfig W p) {data : BitSequence} {r : EncodeResult}
    (h : encodeData data p W = .ok r) :
    ∃ bits, r.codeword = bits.map symOf ∧ W ≤ bits.length ∧ divideBits bits p W = 0#34 := by
  have hdiv := divide_codeword h
  have hlen := encodeData_codeword_length h
  obtain ⟨bits, hbits, -⟩ := divide_eq_ok_iff.mp hdiv
  rw [hbits] at hdiv hlen
  rw [List.length_map] at hlen
  exact ⟨bits, hbits, by omega, divideBits_eq_zero hc hdiv⟩

end Sys2Proof.Machine

/-! ### The statements -/

namespace Sys2Proof.Proofs

open Sys2Proof Sys2Proof.Machine

/-- Settles O32: `STATUS` words apart, the body is echoed, and `END` emits the CRC that `encode` divides for. -/
theorem encOperationComputesEncode : Obligations.EncOperationComputesEncode := by
  intro w p body r s hs hc hbody henc
  obtain ⟨bits, hne, hsyms, ⟨-, hW⟩, rfl⟩ := encodeData_eq_ok_iff.mp henc
  obtain ⟨t, new, hrun, hcommands, hopen, hnew, hecho⟩ := runWords_start_body .enc hs hc hbody hsyms
  have hcrc := crcRegister_lt hc bits
  have hend := exec_endOp_encoding hopen hne
  generalize crcRegister bits p w.toNat = v at hcrc hend ⊢
  refine ⟨_, new ++ ((remstr v w.toNat).map cwsymWord ++ [doneWord .enc w (remOf w.toNat v)]), remOf w.toNat v,
    runWords_operation hrun hcommands hend, toIdle_isS0 _, ?_, ?_, ?_, remstr_remOf hW hcrc⟩
  · rw [finish_responses, emitAll_responses, emitAll_mode, emitAll_width, hnew, hopen.mode, hopen.width,
      List.append_assoc, List.append_assoc]
    rfl
  · rw [withoutStatus_append, withoutStatus_append, hecho, startMode, ← echoes_enc, withoutStatus_echoes,
      withoutStatus_doneWord, ← List.append_assoc, ← echoes_append, echoes_enc]
  · rwa [remOf_toNat hW hcrc]

/-- Settles O33: the codeword divides to zeros, `divide_codeword`, whatever bits `P` has. -/
theorem roundTripIsValid : Obligations.RoundTripIsValid := by
  intro data p w hlo hhi _ hne hbin
  obtain hfail | ⟨r, henc⟩ := encodeData_invalidInput_or_ok data p ⟨hlo, hhi⟩
  · obtain rfl | hnone := encodeData_eq_invalidInput_iff.mp hfail
    · exact absurd rfl hne
    · rw [hnone] at hbin
      cases hbin
  · have hlen : w ≤ r.codeword.length := by rw [encodeData_codeword_length henc]; omega
    have hzeros : allZeros (zeros w) = true := by simp [allZeros, zeros]
    exact ⟨r, henc, by rw [verify_of_divide hlen (divide_codeword henc), hzeros]⟩

/-- Settles O35: either the `END` over no data or the first non-binary symbol raises, and what is queued behind raises
`NOT_RUNNING`. -/
theorem failedEncodingDeliversNoResult : Obligations.FailedEncodingDeliversNoResult := by
  intro w p body s hs hc hbody henc
  simp only [operationWords_eq]
  obtain hnil | hbin := encodeData_eq_invalidInput_iff.mp henc
  · obtain ⟨t, new, hrun, hidle, hnew, htrace⟩ := runWords_operation_raise .enc (bs := []) (queued := []) hs hc hbody
      hnil (fun t => exec_endOp_encoding_nil) nofun
    obtain ⟨hdone, r, hr, hkind, hcause⟩ := noDone_of_raise_trace htrace
    exact ⟨t, new, hrun, hidle, hnew, hdone, r, hr, hkind, .inr hcause⟩
  · obtain ⟨before, after, sym, bs, rfl, hbs, hsym⟩ := exists_first_nonbinary hbin
    obtain ⟨hbefore, hrest⟩ := List.forall_mem_append.mp hbody
    obtain ⟨-, hafter⟩ := List.forall_mem_cons.mp hrest
    obtain ⟨t, new, hrun, hidle, hnew, htrace⟩ := runWords_operation_raise .enc (queued := after ++ [.endOp]) hs hc
      hbefore hbs (fun t hopen => exec_push_nonbinary hopen.phase hsym)
      (List.forall_mem_append.mpr ⟨fun j hj => .inl (hafter j hj), by simp⟩)
    obtain ⟨hdone, r, hr, hkind, hcause⟩ := noDone_of_raise_trace htrace
    rw [List.append_assoc, List.cons_append]
    exact ⟨t, new, hrun, hidle, hnew, hdone, r, hr, hkind, .inl hcause⟩

/-- Settles O34: a `DONE` shows that `encode` answered, so the symbols are a codeword, whose division leaves the register
zero. -/
theorem encodedSymbolsVerifyOnTheCore : Obligations.EncodedSymbolsVerifyOnTheCore := by
  intro w p body kind s t new hs hc hbody hkind hrun hnew hdone
  have ⟨hlo, hhi, _⟩ := hc
  obtain hfail | ⟨r, henc⟩ := encodeData_invalidInput_or_ok (symbolsOf body) p ⟨hlo, hhi⟩
  · obtain ⟨t', new', hrun', -, hnew', hnone, -⟩ := failedEncodingDeliversNoResult w p body s hs hc hbody hfail
    obtain ⟨rfl, rfl⟩ := runWords_unique hrun hnew hrun' hnew'
    obtain ⟨rsp, hrsp, hdone⟩ := hdone
    exact absurd hdone (hnone rsp hrsp)
  · obtain ⟨t', new', rem, hrun', hidle, hnew', htrace, -⟩ := encOperationComputesEncode w p body r s hs hc hbody henc
    obtain ⟨rfl, rfl⟩ := runWords_unique hrun hnew hrun' hnew'
    obtain ⟨bits, hbits, hlen, hzero⟩ := exists_codeword_bits hc henc
    rw [cwsymSymbols_of_trace htrace, hbits, ← remOf_zero w.toNat, ← hzero]
    exact runWords_operation_pushes hkind hidle hc hlen

/-- Settles O31: `divide` answers `W` characters. -/
theorem codewordIsSystematic : Obligations.CodewordIsSystematic := by
  intro data p w r h
  obtain ⟨bits, -, rfl, hW, rfl⟩ := encodeData_eq_ok_iff.mp h
  exact ⟨encodeData_codeword_length h, rfl, remstr_length ..,
    divide_eq_ok_iff.mpr ⟨_, map_symOf_append_zeros bits w, hW, rfl⟩⟩

end Sys2Proof.Proofs

/-! Proofs, family "The verifier": `verify` on sequences, multiples of the generator as error patterns, the remainder of
a single-bit error, and what a `VER` operation answers; then the statements of 42_verifier.md. -/

namespace Sys2Proof.Machine

/-! ### `verify` (R100) -/

theorem allZeros_eq_true_iff {a : BitSequence} : allZeros a = true ↔ a = zeros a.length := by
  simp [allZeros, zeros, List.eq_replicate_iff]

theorem allZeros_remstr_iff {n : Nat} (v : BitVec n) (W : Nat) :
    allZeros (remstr v W) = true ↔ remstr v W = zeros W := by
  rw [allZeros_eq_true_iff, remstr_length]

theorem allZeros_zeros (n : Nat) : allZeros (zeros n) = true :=
  allZeros_eq_true_iff.mpr (by simp [zeros])

theorem verify_of_length_lt {c : BitSequence} {p : Poly} {W : Nat} (h : c.length < W) :
    verify c p W = .error .invalidInput :=
  if_pos (.inl h)

/-- `verify` answers exactly for a sequence of at least `W` symbols that `divide` answers for. -/
theorem verify_eq_ok_iff {c : BitSequence} {p : Poly} {W : Nat} {v : VerifyResult} :
    verify c p W = .ok v ↔ W ≤ c.length ∧ ∃ r, divide c p W = .ok r ∧ v = ⟨r, allZeros r⟩ := by
  constructor
  · intro h
    unfold verify at h
    split at h
    case isTrue => cases h
    case isFalse hin =>
      obtain ⟨hlen, -⟩ := not_or.mp hin
      split at h
      case h_1 => cases h
      case h_2 r hd => exact ⟨not_lt.mp hlen, r, hd, (Except.ok.inj h).symm⟩
  · rintro ⟨hlen, r, hd, rfl⟩
    exact verify_of_divide hlen hd

/-- The valid sequences are those that divide to zeros. -/
theorem verify_valid_iff {c : BitSequence} {p : Poly} {W : Nat} :
    verify c p W = .ok ⟨zeros W, true⟩ ↔ W ≤ c.length ∧ divide c p W = .ok (zeros W) := by
  rw [verify_eq_ok_iff]
  refine and_congr_right fun _ => ⟨?_, fun hd => ⟨_, hd, by rw [allZeros_zeros]⟩⟩
  rintro ⟨r, hd, hv⟩
  rwa [(VerifyResult.mk.inj hv).1]

/-- `W` symbols are their own remainder (R104). -/
theorem divide_of_length_eq {bits : List Bool} {p : Poly} {W : Nat} (hW : 1 ≤ W ∧ W ≤ 32) (hn : bits.length = W) :
    divide (bits.map symOf) p W = .ok (bits.map symOf) :=
  divide_eq_ok_iff.mpr ⟨bits, rfl, hW, remstr_divideBits_of_length_eq hW.2 hn p⟩

/-! ### Multiples of the generator (R108) -/

theorem xorSequence_comm (a b : BitSequence) : xorSequence a b = xorSequence b a := by
  unfold xorSequence
  rw [List.zipWith_comm]
  simp only [bne_comm]

theorem xorSequence_length {a b : BitSequence} (h : a.length = b.length) : (xorSequence a b).length = a.length := by
  simp [xorSequence, h]

/-- Adding a sequence that divides to zeros leaves the remainder unchanged: by linearity the zeros are added to it. -/
theorem divide_xorSequence_multiple {e c r : BitSequence} {p : Poly} {W : Nat} (hlen : e.length = c.length)
    (he : divide e p W = .ok (zeros W)) (hc : divide c p W = .ok r) : divide (xorSequence e c) p W = .ok r := by
  obtain ⟨hxor, -⟩ := Proofs.divideIsLinear e c (zeros W) r W p hlen he hc
  obtain ⟨bits, -, -, rfl⟩ := divide_eq_ok_iff.mp hc
  rwa [← remstr_zero 34 W, ← remstr_xor, BitVec.zero_xor] at hxor

/-! ### Single-bit errors (R105, R124) -/

theorem flipSymbol_symOf (b : Bool) : flipSymbol (symOf b) = symOf !b := by
  cases b <;> decide

/-- The bits that the injector adds: 1 exactly at the in-range positions (R124). -/
def errorBits (n : Nat) (positions : List Nat) : List Bool := (List.range n).map fun i => decide (i ∈ positions)

theorem errorBits_length (n : Nat) (positions : List Nat) : (errorBits n positions).length = n := by
  simp [errorBits]

theorem injectFrom_eq_mapIdx (positions : List Nat) (k : Nat) (c : BitSequence) :
    injectFrom positions k c = c.mapIdx fun i sym => if k + i ∈ positions then flipSymbol sym else sym := by
  induction c generalizing k with
  | nil => rfl
  | cons sym rest ih =>
    rw [injectFrom, ih, List.mapIdx_cons]
    simp only [Nat.add_zero, Nat.add_assoc, Nat.add_comm 1]

/-- The injector adds its error bits to a binary sequence (R124). -/
theorem injectErrors_map_symOf (bits : List Bool) (positions : List Nat) :
    injectErrors (bits.map symOf) positions =
      xorSequence (bits.map symOf) ((errorBits bits.length positions).map symOf) := by
  rw [injectErrors, injectFrom_eq_mapIdx, xorSequence_map_symOf]
  apply List.ext_getElem
  · simp [errorBits_length]
  · intro i hi _
    by_cases hpos : i ∈ positions <;> simp [errorBits, hpos, flipSymbol_symOf]

/-- A corrupted valid sequence has the remainder of its error bits (R105). -/
theorem verify_injectErrors {bits : List Bool} {p : Poly} {W : Nat} (hc : LegalConfig W p)
    (hvalid : verify (bits.map symOf) p W = .ok ⟨zeros W, true⟩) (positions : List Nat) :
    verify (injectErrors (bits.map symOf) positions) p W =
      .ok ⟨remstr (divideBits (errorBits bits.length positions) p W) W,
        allZeros (remstr (divideBits (errorBits bits.length positions) p W) W)⟩ := by
  obtain ⟨hn, hdiv⟩ := verify_valid_iff.mp hvalid
  have hlen : (bits.map symOf).length = ((errorBits bits.length positions).map symOf).length := by
    rw [List.length_map, List.length_map, errorBits_length]
  rw [injectErrors_map_symOf]
  exact verify_of_divide ((xorSequence_length hlen).symm ▸ hn)
    (divide_xorSequence_multiple hlen hdiv (divide_map_symOf hc _))

section SingleBit

open Polynomial

/-- The message of a single 1 at position `k` is a power of `X`. -/
theorem messagePoly_errorBits_singleton {n k : Nat} (hk : k < n) :
    messagePoly (errorBits n [k]) = X ^ (n - 1 - k) := by
  unfold messagePoly
  rw [errorBits_length, ← Finset.sum_ite_eq_of_mem' (Finset.range n) k (fun i => (X : (ZMod 2)[X]) ^ (n - 1 - i))
    (Finset.mem_range.mpr hk)]
  refine Finset.sum_congr rfl fun i hi => ?_
  have hi' := Finset.mem_range.mp hi
  simp [errorBits, hi']

theorem bitPoly_coeff (bit : Nat → Bool) {n i : Nat} (hi : i < n) :
    (bitPoly bit n).coeff i = if bit i then 1 else 0 := by
  have hterm : ∀ k, (if bit k then (X : (ZMod 2)[X]) ^ k else 0).coeff i =
      if i = k then if bit k then 1 else 0 else 0 := by
    intro k
    cases hk : bit k <;> simp [coeff_X_pow]
  simp only [bitPoly, finsetSum_coeff, hterm]
  exact Finset.sum_ite_eq_of_mem _ _ _ (Finset.mem_range.mpr hi)

/-- A generator with a second term divides no power of `X`: the monic divisors of `X ^ m` are powers of `X`. -/
theorem LegalConfig.not_bitPoly_dvd_X_pow {W : Nat} {p : Poly} (hc : LegalConfig W p) {j : Nat} (hj : j < W)
    (hterm : p.getLsbD j = true) (m : Nat) : ¬ bitPoly p.getLsbD (W + 1) ∣ X ^ m := by
  intro hdvd
  obtain ⟨i, -, hassoc⟩ := (dvd_prime_pow prime_X m).mp hdvd
  have heq := eq_of_monic_of_associated hc.bitPoly_monic (monic_X_pow i) hassoc
  obtain rfl : W = i := by
    have hdeg := hc.bitPoly_degree
    rw [heq, degree_X_pow] at hdeg
    exact_mod_cast hdeg.symm
  have hcoeff := congrArg (coeff · j) heq
  simp [bitPoly_coeff _ (Nat.lt_succ_of_lt hj), hterm, coeff_X_pow, hj.ne] at hcoeff

theorem divideBits_errorBits_singleton_ne_zero {W : Nat} {p : Poly} (hc : LegalConfig W p) {j : Nat} (hj : j < W)
    (hterm : p.getLsbD j = true) {n k : Nat} (hk : k < n) : divideBits (errorBits n [k]) p W ≠ 0#34 := by
  intro h0
  have hmod := bitPoly_divideBits hc (errorBits n [k])
  rw [h0, messagePoly_errorBits_singleton hk] at hmod
  refine hc.not_bitPoly_dvd_X_pow hj hterm (n - 1 - k) ((modByMonic_eq_zero_iff_dvd hc.bitPoly_monic).mp ?_)
  rw [← hmod]
  simp [bitPoly]

end SingleBit

/-! ### The remainder word -/

/-- The only value below `2^W` whose string is all zeros is 0. -/
theorem remstr_eq_zeros_iff {n W : Nat} {v : BitVec n} (hv : v.toNat < 2 ^ W) : remstr v W = zeros W ↔ v = 0#n := by
  rw [← remstr_zero n W]
  exact ⟨remstr_injOn hv (Nat.two_pow_pos W), fun h => by rw [h]⟩

/-- `REM = 0` says that the remainder string is all zeros (R23, R54). -/
theorem remOf_eq_zero_iff {W : Nat} {r : Reg} (hW : W ≤ 32) (hr : r.toNat < 2 ^ W) :
    remOf W r = 0#32 ↔ remstr r W = zeros W := by
  rw [← remstr_remOf hW hr, remstr_eq_zeros_iff (remOf_toNat hW hr ▸ hr)]

/-! ### A `VER` operation (R102, R106) -/

/-- A division, or a verification of at least `W` symbols, emits its `DONE` alone, `STATUS` words apart. -/
theorem runWords_operation_done {kind : StartKind} (hkind : kind ≠ .enc) {w : Width} {p : Poly} {body : List Instr}
    {bits : List Bool} {s : State} (hs : s.isS0) (hc : LegalConfig w.toNat p) (hbody : ∀ i ∈ body, i.isBody = true)
    (hbits : symbolsOf body = bits.map symOf) (hn : w.toNat ≤ bits.length) :
    ∃ t new, runWords (operationWords kind w p body) s = .next t ∧ t.isS0 ∧ t.responses = s.responses ++ new ∧
      withoutStatus new = [doneWord (startMode kind) w (remOf w.toNat (divideBits bits p w.toNat))] := by
  obtain ⟨t, new, hrun, hcommands, hopen, hnew, hecho⟩ := runWords_start_body kind hs hc hbody hbits
  have ⟨_, hW, _⟩ := hc
  have hend := exec_endOp_of_ne_enc hopen hkind hW hn
  generalize remOf w.toNat (divideBits bits p w.toNat) = rem at hend ⊢
  refine ⟨_, new ++ [doneWord (startMode kind) w rem], runWords_operation hrun hcommands hend, toIdle_isS0 _,
    ?_, ?_⟩
  · rw [finish_responses, hnew, hopen.mode, hopen.width, List.append_assoc]
  · rw [withoutStatus_append, hecho, echoes_of_ne_enc (startMode_ne_enc hkind), withoutStatus_doneWord,
      List.nil_append]

/-- `END` of a verification of fewer than `W` symbols (R102). -/
theorem exec_endOp_ver_short {s : State} {w : Width} {p : Poly} {bits : List Bool} (h : s.InOperation .ver w p bits)
    (hn : bits.length < w.toNat) : exec .endOp s = .next (raise 0x5#4 .shortCodeword 0#8 s) := by
  obtain ⟨-, ⟨-, hW, -⟩, -⟩ := h.inv.2 h.phase
  rw [h.width] at hW
  have hcnt : s.cnt.toNat < s.width.toNat := by
    rw [h.cnt_eq, h.width]
    omega
  simp only [exec, execEnd, h.phase, h.mode, endVerify, if_pos hcnt]

/-! ### What a verdict certifies (R103) -/

/-- A valid sequence longer than `W` is not alone: data that begins with the other symbol has a codeword of that
length. -/
theorem exists_other_valid {sent : BitSequence} {p : Poly} {W : Nat} (hc : LegalConfig W p)
    (hsent : verify sent p W = .ok ⟨zeros W, true⟩) (hlen : W < sent.length) :
    ∃ received : BitSequence, received ≠ sent ∧ received.length = sent.length ∧
      verify received p W = .ok ⟨zeros W, true⟩ := by
  obtain ⟨-, hdiv⟩ := verify_valid_iff.mp hsent
  obtain ⟨bits, rfl, -⟩ := divide_eq_ok_iff.mp hdiv
  rw [List.length_map] at hlen
  cases bits with
  | nil => cases hlen
  | cons b bits =>
    rw [List.length_cons] at hlen
    obtain ⟨hlo, hhi, hlead, -⟩ := hc
    obtain ⟨r, henc, hvalid⟩ := Proofs.roundTripIsValid
      (((!b) :: List.replicate (bits.length - W) false).map symOf) p W hlo hhi hlead nofun
      (by rw [bitsOf?_map_symOf]; rfl)
    obtain ⟨_, -, -, -, hr⟩ := encodeData_eq_ok_iff.mp henc
    refine ⟨r.codeword, fun heq => ?_, ?_, hvalid⟩
    · rw [hr] at heq
      exact Bool.not_ne_self b (symOf_injective (List.cons.inj heq).1)
    · rw [encodeData_codeword_length henc]
      simp only [List.length_map, List.length_cons, List.length_replicate]
      omega

end Sys2Proof.Machine

/-! ### The statements -/

namespace Sys2Proof.Proofs

open Sys2Proof Sys2Proof.Machine

/-- Settles O36: `END` reports the register, or raises where the counter is below `W`. -/
theorem verOperationComputesVerify : Obligations.VerOperationComputesVerify := by
  intro w p body bs s hs hc hbody hbs
  have hsyms := (bitsOf?_eq_some_iff _ _).mp hbs
  have hlen : (symbolsOf body).length = bs.length := by rw [hsyms, List.length_map]
  have ⟨_, hW, _⟩ := hc
  obtain hshort | hn := Nat.lt_or_ge bs.length w.toNat
  · obtain ⟨t, new, hrun, hidle, hnew, htrace⟩ := runWords_operation_raise .ver (queued := []) hs hc hbody hsyms
      (fun t hopen => exec_endOp_ver_short hopen hshort) nofun
    refine ⟨t, new, ?_, hidle, hnew, fun _ => htrace, fun hn => ?_⟩
    · rw [operationWords_eq]
      exact hrun
    · omega
  · obtain ⟨t, new, hrun, hidle, hnew, htrace⟩ := runWords_operation_done (kind := .ver) nofun hs hc hbody hsyms hn
    have hreg := divideBits_lt hc bs
    refine ⟨t, new, hrun, hidle, hnew, fun hshort => ?_, fun _ => ⟨_, _,
      verify_of_divide (hlen ▸ hn) (hsyms ▸ divide_map_symOf hc bs), htrace, remstr_remOf hW hreg, ?_, ?_⟩⟩
    · omega
    · rwa [remOf_toNat hW hreg]
    · rw [rspZero_doneWord, zeroFlag, beq_iff_eq, remOf_eq_zero_iff hW hreg]
      exact (allZeros_remstr_iff _ _).symm

/-- Settles O37: nothing is subtracted from `W` symbols; a codeword has at least one symbol of data besides its CRC of
`W`. -/
theorem verifyLengthBoundary : Obligations.VerifyLengthBoundary := by
  intro bits bs p w hc hbs
  have ⟨hlo, hhi, _⟩ := hc
  refine ⟨fun hn => ?_, verify_of_length_lt, fun data r henc => ?_⟩
  · obtain rfl := (bitsOf?_eq_some_iff _ _).mp hbs
    have hall : allZeros (bs.map symOf) = decide (∀ sym ∈ bs.map symOf, sym = 0x30#8) := by
      simp only [allZeros, List.all_eq, beq_iff_eq]
    rw [verify_of_divide hn.ge (divide_of_length_eq ⟨hlo, hhi⟩ (by rwa [List.length_map] at hn)), hall]
  · obtain ⟨_, hne, hdata, -⟩ := encodeData_eq_ok_iff.mp henc
    have hpos := List.length_pos_iff.mpr hne
    rw [encodeData_codeword_length henc, hdata, List.length_map]
    omega

/-- Settles O38: the remainder is that of the error pattern, a power of `X`, which the generator does not divide. -/
theorem singleBitErrorsAreDetected : Obligations.SingleBitErrorsAreDetected := by
  rintro c p w k hc ⟨j, hj, hterm⟩ hvalid hk
  obtain ⟨-, hdiv⟩ := verify_valid_iff.mp hvalid
  obtain ⟨bits, rfl, -⟩ := divide_eq_ok_iff.mp hdiv
  rw [List.length_map] at hk
  have hreg := divideBits_errorBits_singleton_ne_zero hc hj hterm hk
  rw [ne_eq, ← remstr_eq_zeros_iff (divideBits_lt hc _), ← allZeros_remstr_iff, Bool.not_eq_true] at hreg
  exact ⟨_, by rw [verify_injectErrors hc hvalid, hreg]⟩

/-- Settles O39, by linearity: `divide_xorSequence_multiple`. -/
theorem multiplesOfTheGeneratorPassUndetected : Obligations.MultiplesOfTheGeneratorPassUndetected := by
  intro c e p w hlen he
  have hdivide : ∀ r, divide c p w = .ok r → divide (xorSequence c e) p w = .ok r := fun r hc => by
    rw [xorSequence_comm]
    exact divide_xorSequence_multiple hlen.symm he hc
  refine ⟨fun v hv _ => ?_, hdivide⟩
  obtain ⟨hn, r, hc, rfl⟩ := verify_eq_ok_iff.mp hv
  exact verify_of_divide ((xorSequence_length hlen).symm ▸ hn) (hdivide r hc)

/-- Settles O58: `sent` divides to zeros, so the error pattern has the remainder of the sequence received. -/
theorem zeroMeansNoDetectableError : Obligations.ZeroMeansNoDetectableError := by
  intro w p sent hc hsent
  have ⟨_, hW, _⟩ := hc
  obtain ⟨hn, hdiv⟩ := verify_valid_iff.mp hsent
  refine ⟨fun body s hs hbody hbin hlen => ?_, exists_other_valid hc hsent⟩
  obtain ⟨bs, hbs⟩ := Option.isSome_iff_exists.mp hbin
  have hsyms := (bitsOf?_eq_some_iff _ _).mp hbs
  rw [← hlen, hsyms, List.length_map] at hn
  obtain ⟨t, new, hrun, -, hnew, htrace⟩ := runWords_operation_done (kind := .ver) nofun hs hc hbody hsyms hn
  have hreceived : divide (symbolsOf body) p w.toNat = .ok (remstr (divideBits bs p w.toNat) w.toNat) :=
    hsyms ▸ divide_map_symOf hc bs
  have hverdict : verdictOf? (doneWord .ver w (remOf w.toNat (divideBits bs p w.toNat))) =
      some (if divide (xorSequence sent (symbolsOf body)) p w.toNat = .ok (zeros w.toNat)
        then .noDetectableError else .errorDetected) := by
    simp only [verdictOf?_doneWord, if_true, divide_xorSequence_multiple hlen.symm hdiv hreceived, Except.ok.injEq,
      remOf_eq_zero_iff hW (divideBits_lt hc bs)]
  refine ⟨t, new, _, hrun, hnew, htrace, hverdict, fun heq => hverdict.trans ?_⟩
  rw [heq, divide_xorSequence_multiple rfl hdiv hdiv, if_pos rfl]

end Sys2Proof.Proofs

/-! Proofs, family "Control commands": a step on a word of format Z, the trace without its `STATUS` words as a simulation
of the run without `NOP` and `STAT`, then the statements of 43_control.md. -/

namespace Sys2Proof.Machine

/-! ### A step on a word of format Z (R49, R58) -/

/-- A word with the opcode of a command without operands is that command's word, or its reserved field raises. -/
theorem step_formatZ {i : Instr} (hi : i ∈ [.nop, .endOp, .abort, .stat]) {s : State} {cmd : Word} {rest : List Word}
    (hc : s.commands = cmd :: rest) (hop : opField cmd = i.opcode) :
    step s = if cmd = encode i then exec i { s with commands := rest }
      else .next (raise i.opcode .reservedField 0#8 { s with commands := rest }) := by
  have hform : encode i = wordZ i.opcode ∧ i.opcode.toNat ∈ [0, 5, 6, 7] := by
    simp only [List.mem_cons, List.not_mem_nil, or_false] at hi
    obtain rfl | rfl | rfl | rfl := hi <;> exact ⟨rfl, by decide⟩
  obtain ⟨hword, hop'⟩ := hform
  split
  case isTrue hcmd => exact (step_cons hc).trans (acceptWord_of_decode (decode_eq_ok_iff.mpr hcmd.symm) _)
  case isFalse hcmd =>
    have hrsv : rsvZ cmd ≠ 0#44 := fun h => hcmd ((hword.trans (wordZ_eq_of_fields hop h)).symm)
    rw [step_of_decode_error hc (decode_of_rsvZ_ne (hop ▸ hop') hrsv), hop, decodeCause]

/-! ### Commands that emit no `STATUS` word (R52)

Only `STAT` does; `NOP` and `STAT` apart, the commands keep a trace free of them. -/

/-- No word on the response channel is a `STATUS` word. -/
def State.NoStatus (s : State) : Prop := withoutStatus s.responses = s.responses

section NoStatus

variable {s t : State} (hs : s.NoStatus)
include hs

theorem emitAll_noStatus {rsps : List Word} (h : withoutStatus rsps = rsps) : (emitAll rsps s).NoStatus := by
  rw [State.NoStatus, emitAll_responses, withoutStatus_append, hs, h]

theorem raise_noStatus (op : Opcode) (cause : Cause) (sym : Symbol) : (raise op cause sym s).NoStatus :=
  emitAll_noStatus hs (withoutStatus_errWord ..)

theorem finish_noStatus (rem : Rem) : (finish rem s).NoStatus :=
  emitAll_noStatus hs (withoutStatus_doneWord ..)

theorem start_noStatus (op : Opcode) (mode : Mode) (w : Width) (p : Poly) : (start op mode w p s).NoStatus := by
  obtain ⟨-, h⟩ | ⟨-, cause, -, h⟩ | ⟨-, -, h⟩ := start_cases op mode w p s <;> rw [h]
  · exact raise_noStatus hs ..
  · exact raise_noStatus hs ..
  · exact hs

theorem execPush_noStatus {sym : Symbol} (h : execPush sym s = .next t) : t.NoStatus := by
  obtain ⟨-, h'⟩ | ⟨-, -, h'⟩ | ⟨-, b, -, h'⟩ := execPush_cases sym s <;> cases h'.symm.trans h
  · exact raise_noStatus hs ..
  · exact raise_noStatus hs ..
  · split
    · exact emitAll_noStatus (s := acceptBit b s) hs (withoutStatus_echoes .enc [sym])
    · exact hs

theorem endEncode_noStatus : (endEncode s).NoStatus := by
  unfold endEncode
  split
  · exact raise_noStatus hs ..
  · exact finish_noStatus (emitAll_noStatus hs (withoutStatus_echoes .enc _)) _

theorem endVerify_noStatus : (endVerify s).NoStatus := by
  unfold endVerify
  split
  · exact raise_noStatus hs ..
  · exact finish_noStatus hs _

theorem execEnd_noStatus (h : execEnd s = .next t) : t.NoStatus := by
  obtain ⟨-, h'⟩ | ⟨-, -, h'⟩ | ⟨-, -, h'⟩ | ⟨-, -, h'⟩ | ⟨-, -, h'⟩ := execEnd_cases s <;> cases h'.symm.trans h
  · exact raise_noStatus hs ..
  · exact finish_noStatus hs _
  · exact endEncode_noStatus hs
  · exact endVerify_noStatus hs

theorem exec_noStatus {i : Instr} (hi : i.isTransparent = false) (h : exec i s = .next t) : t.NoStatus := by
  cases i with
  | push sym => exact execPush_noStatus hs h
  | endOp => exact execEnd_noStatus hs h
  | abort => cases h; exact hs
  | div w p | enc w p | ver w p => cases h; exact start_noStatus hs ..
  | nop | stat => cases hi

end NoStatus

/-! ### The run without `NOP` and `STAT` (R113)

Forgetting the `STATUS` words of the trace relates the two runs: `NOP` and `STAT` do not move the related state, and
every other command moves it along. -/

/-- The state as if nothing had been emitted. -/
def State.untraced (s : State) : State := { s with responses := [] }

/-- The state as if no `STATUS` word had been emitted. -/
def State.dropStatus (s : State) : State := { s with responses := withoutStatus s.responses }

theorem untraced_withHistory (s : State) : s.untraced.withHistory s.responses = s := by
  simp [State.untraced, State.withHistory]

theorem untraced_noStatus (s : State) : s.untraced.NoStatus := rfl

theorem State.NoStatus.dropStatus_eq {s : State} (h : s.NoStatus) : s.dropStatus = s := by
  rw [State.dropStatus, h]

theorem dropStatus_withHistory (pre : List Word) (s : State) :
    (s.withHistory pre).dropStatus = s.dropStatus.withHistory (withoutStatus pre) := by
  simp [State.dropStatus, State.withHistory, withoutStatus_append]

theorem resultWithHistory_eq_next {pre : List Word} {r : Result} {t : State}
    (h : resultWithHistory pre r = .next t) : ∃ u, r = .next u ∧ t = u.withHistory pre := by
  cases r with
  | next u => cases h; exact ⟨u, rfl, rfl⟩
  | fault | refused => cases h

theorem exec_untraced (i : Instr) (s : State) : exec i s = resultWithHistory s.responses (exec i s.untraced) := by
  rw [← exec_withHistory, untraced_withHistory]

theorem runWords_untraced (words : List Word) (s : State) :
    runWords words s = resultWithHistory s.responses (runWords words s.untraced) := by
  conv_lhs => rw [← untraced_withHistory s]
  exact runSteps_withHistory s.responses words.length (s.untraced.withCommands words)

theorem exec_transparent_dropStatus {i : Instr} {s t : State} (hi : i.isTransparent = true) (h : exec i s = .next t) :
    t.dropStatus = s.dropStatus := by
  cases i with
  | nop => cases h; rfl
  | stat =>
    cases h
    rw [State.dropStatus, emit_responses, withoutStatus_append, withoutStatus_statusWord, List.append_nil]
    rfl
  | div w p | enc w p | ver w p | push sym | endOp | abort => cases hi

/-- A command other than `NOP` and `STAT` emits the same words whatever the trace before it, and no `STATUS` word. -/
theorem exec_dropStatus {i : Instr} {s t : State} (hi : i.isTransparent = false) (h : exec i s = .next t) :
    exec i s.dropStatus = .next t.dropStatus := by
  rw [exec_untraced] at h
  obtain ⟨u, hu, rfl⟩ := resultWithHistory_eq_next h
  have hdrop : u.dropStatus = u := (exec_noStatus (untraced_noStatus s) hi hu).dropStatus_eq
  calc exec i s.dropStatus
    _ = exec i (s.untraced.withHistory (withoutStatus s.responses)) := by
      rw [← (untraced_noStatus s).dropStatus_eq, ← dropStatus_withHistory, untraced_withHistory]
    _ = .next (u.withHistory (withoutStatus s.responses)) := by rw [exec_withHistory, hu, resultWithHistory]
    _ = .next (u.withHistory s.responses).dropStatus := by rw [dropStatus_withHistory, hdrop]

theorem runWords_filter_dropStatus (cmds : List Instr) {s t : State} (h : runWords (cmds.map encode) s = .next t) :
    runWords ((cmds.filter fun i => !i.isTransparent).map encode) s.dropStatus = .next t.dropStatus := by
  induction cmds generalizing s with
  | nil => cases h; rfl
  | cons i cmds ih =>
    obtain ⟨u, hu, hrun⟩ := runWords_cons_eq_next h
    rw [acceptWord_of_decode (decode_encode i)] at hu
    have hrest := ih hrun
    cases hi : i.isTransparent with
    | true =>
      rw [exec_transparent_dropStatus hi hu] at hrest
      rw [List.filter_cons_of_neg (by simp [hi])]
      exact hrest
    | false =>
      have hu' := exec_withCommands ((cmds.filter fun i => !i.isTransparent).map encode) (exec_dropStatus hi hu)
      rw [List.filter_cons_of_pos (by simp [hi]), List.map_cons]
      exact (runWords_cons_next ((acceptWord_of_decode (decode_encode i) _).trans hu') rfl).trans hrest

end Sys2Proof.Machine

/-! ### The statements -/

namespace Sys2Proof.Proofs

open Sys2Proof Sys2Proof.Machine

/-- Settles O42, by the step on a word of format Z for `NOP` and for `ABORT`. -/
theorem nopAndAbortWords : Obligations.NopAndAbortWords := by
  intro s cmd rest hc
  refine ⟨fun hop => ?_, fun hop => ?_⟩ <;> rw [apply_ite Host.Outcome.next]
  · exact step_formatZ (i := .nop) (by simp) hc hop
  · simp only [List.append_nil]
    exact step_formatZ (i := .abort) (by simp) hc hop

/-- Settles O43. From the state with an empty trace the runs are related by `runWords_filter_dropStatus`; the trace before
them is history to both. -/
theorem nopAndStatAreTransparent : Obligations.NopAndStatAreTransparent := by
  intro cmds s t new h hnew
  rw [runWords_untraced] at h ⊢
  obtain ⟨u, hu, rfl⟩ := resultWithHistory_eq_next h
  obtain rfl : u.responses = new := List.append_cancel_left hnew
  have hfilter := runWords_filter_dropStatus cmds hu
  rw [(untraced_noStatus s).dropStatus_eq] at hfilter
  exact congrArg (resultWithHistory s.responses) hfilter

/-- Settles O40: the arms of the three commands, with `toIdle` and `emit` written out. -/
theorem controlCommandsComplete : Obligations.ControlCommandsComplete :=
  fun _ => ⟨rfl, rfl, rfl⟩

end Sys2Proof.Proofs

/-! Proofs, family "Companion functions": the error injector on bits, the remainder of a generator's own bits, the
hexadecimal digits; then the statements of 44_companion_functions.md. -/

namespace Sys2Proof.Machine

/-! ### The error injector (R124 to R126) -/

/-- The injector on bits: it adds its error bits. -/
theorem injectErrors_eq_map (bits : List Bool) (positions : List Nat) :
    injectErrors (bits.map symOf) positions =
      (List.zipWith xor bits (errorBits bits.length positions)).map symOf := by
  rw [injectErrors_map_symOf, xorSequence_map_symOf]

/-- The error pattern spells the error bits. -/
theorem errorPattern_eq_map (n : Nat) (positions : List Nat) :
    errorPattern n positions = (errorBits n positions).map symOf := by
  rw [errorPattern, zeros_eq_map, injectErrors_eq_map, List.length_replicate]
  congr 1
  exact List.ext_getElem (by simp [errorBits_length]) (by simp)

theorem errorPattern_getElem? {n k : Nat} (hk : k < n) (positions : List Nat) :
    (errorPattern n positions)[k]? = some (if k ∈ positions then 0x31#8 else 0x30#8) := by
  rw [errorPattern_eq_map, errorBits]
  simp [hk, symOf]

/-- The error bits see of a position list only which of its members are in range. -/
theorem errorBits_congr {n : Nat} {positions other : List Nat} (h : ∀ k < n, k ∈ positions ↔ k ∈ other) :
    errorBits n positions = errorBits n other :=
  List.map_congr_left fun k hk => decide_eq_decide.mpr (h k (List.mem_range.mp hk))

/-- Adding the same bits twice is adding nothing. -/
theorem zipWith_xor_twice {a e : List Bool} (h : a.length = e.length) :
    List.zipWith xor (List.zipWith xor a e) e = a :=
  List.ext_getElem (by simp [h]) (by simp)

/-- A remainder string shows the low `W` bits and nothing else. -/
theorem remstr_eq_iff_agreeBelow {n W : Nat} {v v' : BitVec n} : remstr v W = remstr v' W ↔ AgreeBelow W v v' := by
  rw [remstr, remstr, List.map_inj_left]
  constructor
  · intro h k hk
    have hbit := symOf_injective (h (W - 1 - k) (List.mem_range.mpr (by omega)))
    rwa [show W - 1 - (W - 1 - k) = k by omega] at hbit
  · intro h k hk
    have hk' := List.mem_range.mp hk
    rw [h _ (by omega)]

/-- The sum of two remainders is all zeros exactly when they are equal. -/
theorem allZeros_xorSequence_remstr_iff {n : Nat} (v v' : BitVec n) (W : Nat) :
    allZeros (xorSequence (remstr v W) (remstr v' W)) = true ↔ remstr v W = remstr v' W := by
  rw [← remstr_xor, allZeros_remstr_iff, ← remstr_zero n W, remstr_eq_iff_agreeBelow, remstr_eq_iff_agreeBelow]
  simp [AgreeBelow]

/-! ### The generator of undetectable vectors (R127, R128) -/

/-- Bits `W` to 0 of a generator, as a message: `binaryRepr` spells them. -/
def generatorBits (p : Poly) (W : Nat) : List Bool := (List.range (W + 1)).map fun k => p.getLsbD (W - k)

theorem binaryRepr_eq_map (p : Poly) (W : Nat) : binaryRepr p W = (generatorBits p W).map symOf :=
  remstr_eq_map p (W + 1)

/-- The first `W` of the generator's bits fill the register, and the last one completes the generator's low `W + 1`
bits. -/
theorem getLsbD_shiftConcat_generatorBits {W : Nat} (hW : W ≤ 32) (p : Poly) {j : Nat} (hj : j ≤ W) :
    ((divideBits ((List.range W).map fun k => p.getLsbD (W - k)) p W).shiftConcat (p.getLsbD 0)).getLsbD j =
      p.getLsbD j := by
  cases j with
  | zero => simp
  | succ j =>
    rw [getLsbD_shiftConcat_succ _ _ (by omega), getLsbD_divideBits_of_length_le hW (by simp) p (by omega),
      List.getD_eq_getElem _ _ (by simpa using hj), List.getElem_reverse, List.getElem_map, List.getElem_range]
    congr 1
    rw [List.length_map, List.length_range]
    omega

/-- The generator divides itself: the last step subtracts it from its own low `W + 1` bits. -/
theorem divideBits_generatorBits {W : Nat} (hW : W ≤ 32) {p : Poly} (hlead : p.getLsbD W = true) :
    AgreeBelow W (divideBits (generatorBits p W) p W) 0#34 := by
  intro j hj
  rw [generatorBits, List.range_succ, List.map_append, List.map_singleton, Nat.sub_self, divideBits_concat,
    getLsbD_lfsrStep, getLsbD_shiftConcat_generatorBits hW p hj.le, getLsbD_shiftConcat_generatorBits hW p le_rfl,
    hlead, Bool.true_and, Bool.xor_self, BitVec.getLsbD_zero]

/-- Zeros behind the generator keep the register's low bits zero, as they keep the register 0. -/
theorem remstr_divideBits_generatorBits {W : Nat} (hW : W ≤ 32) {p : Poly} (hlead : p.getLsbD W = true) (pad : Nat) :
    remstr (divideBits (generatorBits p W ++ List.replicate pad false) p W) W = zeros W := by
  have hzero : divideBits (List.replicate pad false) p W = 0#34 := by
    induction pad with
    | zero => rfl
    | succ pad ih => rw [List.replicate_succ, divideBits_false_cons, ih]
  calc remstr (divideBits (generatorBits p W ++ List.replicate pad false) p W) W
    _ = remstr (shiftIn (divideBits (generatorBits p W) p W) (List.replicate pad false) W p) W := by
      rw [divideBits, shiftIn_append, divideBits]
    _ = remstr (divideBits (List.replicate pad false) p W) W :=
      remstr_eq_iff_agreeBelow.mpr (shiftIn_agreeBelow (fun _ _ => rfl) _ (divideBits_generatorBits hW hlead))
    _ = zeros W := by rw [hzero, remstr_zero]

theorem generateUndetectableVector_of_width {W : Nat} (hW : W = 0 ∨ 32 < W) (pad : Nat) (p : Poly) :
    generateUndetectableVector pad p W = .error .invalidConfig :=
  if_pos hW

/-- The generator answers its vector with the verdict that the vector's remainder gives. -/
theorem generateUndetectableVector_of_divide {pad W : Nat} {p : Poly} {r : BitSequence}
    (hd : divide (binaryRepr p W ++ zeros pad) p W = .ok r) :
    generateUndetectableVector pad p W = .ok ⟨binaryRepr p W ++ zeros pad, allZeros r⟩ := by
  obtain ⟨-, -, hW, -⟩ := divide_eq_ok_iff.mp hd
  have hlegal : ¬(W = 0 ∨ Config.wmax < W) := by unfold Config.wmax; omega
  simp only [generateUndetectableVector, if_neg hlegal, hd]

theorem divide_binaryRepr_zeros {W : Nat} (hW : 1 ≤ W ∧ W ≤ 32) {p : Poly} (hlead : p.getLsbD W = true)
    (pad : Nat) : divide (binaryRepr p W ++ zeros pad) p W = .ok (zeros W) :=
  divide_eq_ok_iff.mpr ⟨generatorBits p W ++ List.replicate pad false,
    by rw [binaryRepr_eq_map, map_symOf_append_zeros], hW, remstr_divideBits_generatorBits hW.2 hlead pad⟩

/-! ### Hexadecimal (R130 to R132) -/

/-- The four characters of a digit. -/
theorem remstr_digit (v : BitVec 4) :
    remstr v 4 = [v.getLsbD 3, v.getLsbD 2, v.getLsbD 1, v.getLsbD 0].map symOf := rfl

/-- The codes of the hexadecimal digits end at that of 'f'. -/
theorem toNat_lt_of_hexDigitValue? {c : Char} {v : BitVec 4} (h : hexDigitValue? c = some v) : c.toNat < 0x67 := by
  by_contra hc
  rw [hexDigitValue?, if_neg (by omega), if_neg (by omega), if_neg (by omega)] at h
  cases h

/-- The round trip of each digit, code by code. -/
theorem hexDigitOf_of_code : ∀ n < 0x67, ∀ v ∈ hexDigitValue? (Char.ofNat n),
    hexDigitOf (v.getLsbD 3) (v.getLsbD 2) (v.getLsbD 1) (v.getLsbD 0) = upperHex (Char.ofNat n) := by
  decide

theorem hexDigitOf_of_hexDigitValue? {c : Char} {v : BitVec 4} (h : hexDigitValue? c = some v) :
    hexDigitOf (v.getLsbD 3) (v.getLsbD 2) (v.getLsbD 1) (v.getLsbD 0) = upperHex c := by
  have hcode := hexDigitOf_of_code c.toNat (toNat_lt_of_hexDigitValue? h) v
  rw [Char.ofNat_toNat] at hcode
  exact hcode h

theorem hexToBinary_cons_eq_ok_iff {c : Char} {rest : List Char} {bits : BitSequence} :
    hexToBinary (c :: rest) = .ok bits ↔
      ∃ v tail, hexDigitValue? c = some v ∧ hexToBinary rest = .ok tail ∧ remstr v 4 ++ tail = bits := by
  rw [hexToBinary]
  cases hexDigitValue? c <;> cases hexToBinary rest <;> simp

/-- An accepted text becomes whole groups of four bits, which `groupDigits` reads back in upper case. -/
theorem groupDigits_of_hexToBinary {h : List Char} {bits : BitSequence} (hok : hexToBinary h = .ok bits) :
    ∃ bs, bits = bs.map symOf ∧ bs.length % 4 = 0 ∧ groupDigits bs = h.map upperHex := by
  induction h generalizing bits with
  | nil =>
    cases hok
    exact ⟨[], rfl, rfl, rfl⟩
  | cons c rest ih =>
    obtain ⟨v, tail, hv, htail, rfl⟩ := hexToBinary_cons_eq_ok_iff.mp hok
    obtain ⟨bs, rfl, hlen, hgroup⟩ := ih htail
    refine ⟨[v.getLsbD 3, v.getLsbD 2, v.getLsbD 1, v.getLsbD 0] ++ bs, ?_, ?_, ?_⟩
    · rw [remstr_digit, List.map_append]
    · rw [List.length_append, ← hlen]
      exact Nat.add_mod_left 4 bs.length
    · rw [List.map_cons, ← hgroup, ← hexDigitOf_of_hexDigitValue? hv]
      rfl

/-- Whole groups of four need no padding. -/
theorem padToFour_of_length {bits : List Bool} (h : bits.length % 4 = 0) : padToFour bits = bits := by
  rw [padToFour, h]
  rfl

theorem binaryToHex_map_symOf {bits : List Bool} (h : bits.length % 4 = 0) :
    binaryToHex false (bits.map symOf) = .ok (groupDigits bits) := by
  simp only [binaryToHex, bitsOf?_map_symOf, padToFour_of_length h, if_neg Bool.false_ne_true]

end Sys2Proof.Machine

/-! ### The statements -/

namespace Sys2Proof.Proofs

open Sys2Proof Sys2Proof.Machine

/-- Settles O45: on bits the injector adds its error bits, which the error pattern spells; the remainder is that of
`divideIsLinear`. -/
theorem injectorAddsTheErrorPattern : Obligations.InjectorAddsTheErrorPattern := by
  intro c rc re bs positions p w hbs
  obtain rfl := (bitsOf?_eq_some_iff c bs).mp hbs
  have hlen : (bs.map symOf).length = (errorPattern (bs.map symOf).length positions).length := by
    simp [errorPattern_eq_map, errorBits_length]
  have hinject : injectErrors (bs.map symOf) positions =
      xorSequence (bs.map symOf) (errorPattern (bs.map symOf).length positions) := by
    rw [injectErrors_map_symOf, errorPattern_eq_map, List.length_map]
  refine ⟨hinject, fun k hk => errorPattern_getElem? hk positions, fun hc he hn =>
    ⟨allZeros (xorSequence rc re), ?_, ?_⟩⟩
  · obtain ⟨hxor, -⟩ := divideIsLinear _ _ rc re w p hlen hc he
    rw [analyze, hinject]
    exact verify_of_divide ((xorSequence_length hlen).symm ▸ hn) hxor
  · obtain ⟨_, -, -, rfl⟩ := divide_eq_ok_iff.mp hc
    obtain ⟨_, -, -, rfl⟩ := divide_eq_ok_iff.mp he
    exact allZeros_xorSequence_remstr_iff _ _ w

/-- Settles O46: the error bits know only the in-range members, and added twice they cancel. -/
theorem injectorIsAnInvolution : Obligations.InjectorIsAnInvolution := by
  intro c positions other hbin
  obtain ⟨bits, hbits⟩ := Option.isSome_iff_exists.mp hbin
  obtain rfl := (bitsOf?_eq_some_iff c bits).mp hbits
  rw [List.length_map]
  refine ⟨fun hmem => ?_, ?_⟩
  · rw [injectErrors_eq_map, injectErrors_eq_map, errorBits_congr hmem]
  · have hlen : bits.length = (errorBits bits.length positions).length := (errorBits_length ..).symm
    rw [injectErrors_eq_map, injectErrors_eq_map, List.length_zipWith, ← hlen, min_self, zipWith_xor_twice hlen]

/-- Settles O47: the generator divides itself, and zeros behind it leave the remainder zero. -/
theorem generatedVectorIsUndetectable : Obligations.GeneratedVectorIsUndetectable := by
  refine fun pad w p => ⟨fun hlo hhi hlead => ?_, fun hw => generateUndetectableVector_of_width hw pad p⟩
  rw [generateUndetectableVector_of_divide (divide_binaryRepr_zeros ⟨hlo, hhi⟩ hlead pad), allZeros_zeros]
  rfl

/-- Settles O48: the bits of an accepted text are whole groups of four, one for each digit. -/
theorem hexRoundTrip : Obligations.HexRoundTrip := by
  intro h bits hok
  obtain ⟨bs, rfl, hlen, hgroup⟩ := groupDigits_of_hexToBinary hok
  rw [binaryToHex_map_symOf hlen, hgroup]

/-- Settles O44: the four entries are written out, and no other name exists. -/
theorem registryIsBitForBit : Obligations.RegistryIsBitForBit := by
  refine ⟨rfl, by decide, fun name => ?_⟩
  cases name <;> decide

end Sys2Proof.Proofs

/-! Proofs, family "Exceptions": the configuration check as the rule lists it, the first applicable cause command by
command, the words after which the core is in `RUN`; then the statements of 60_exceptions.md. -/

namespace Sys2Proof

open Sys2Proof.Machine

/-! ### Words that are no command, read from the decoder (R58) -/

theorem decodeZ_eq_error_iff {i : Instr} {cmd : Word} {e : DecodeError} :
    decodeZ i cmd = .error e ↔ rsvZ cmd ≠ 0#44 ∧ .reservedField = e := by
  unfold decodeZ
  split <;> simp [*]

theorem decodeS_eq_error_iff {make : Width → Poly → Instr} {cmd : Word} {e : DecodeError} :
    decodeS make cmd = .error e ↔ rsvS cmd ≠ 0#5 ∧ .reservedField = e := by
  unfold decodeS
  split <;> simp [*]

theorem decodeP_eq_error_iff {make : Symbol → Instr} {cmd : Word} {e : DecodeError} :
    decodeP make cmd = .error e ↔ rsvP cmd ≠ 0#36 ∧ .reservedField = e := by
  unfold decodeP
  split <;> simp [*]

theorem opField_encode (i : Instr) : opField (encode i) = i.opcode := by
  cases i with
  | div w p | enc w p | ver w p => exact (wordS_fields _ w p).1
  | push sym => exact (wordP_fields _ sym).1
  | nop | endOp | abort | stat => exact (wordZ_fields _).1

end Sys2Proof

namespace Sys2Proof.Machine

/-! ### The causes (R142) -/

/-- The ten causes, in the table's order. -/
def causes : List Cause :=
  [.nonbinarySymbol, .emptyData, .shortCodeword, .widthZero, .widthTooLarge, .polyMalformed, .reservedOpcode,
    .reservedField, .notIdle, .notRunning]

theorem mem_causes (c : Cause) : c ∈ causes := by
  cases c <;> decide

/-! ### The configuration check (R144) -/

/-- The condition of `POLY_MALFORMED` on a width and a polynomial (R142, R144). -/
def malformed (W : Nat) (p : Poly) : Bool := !p.getLsbD W || (List.range 33).any fun k => decide (W < k) && p.getLsbD k

theorem malformed_iff {W : Nat} {p : Poly} :
    malformed W p = true ↔ p.getLsbD W = false ∨ ∃ k, W < k ∧ k < 33 ∧ p.getLsbD k = true := by
  simp [malformed, and_left_comm]

theorem ushiftRight_ne_zero_iff (p : Poly) (W : Nat) :
    p >>> (W + 1) ≠ 0#33 ↔ ∃ k, W < k ∧ k < 33 ∧ p.getLsbD k = true := by
  constructor
  · intro h
    by_contra hk
    push Not at hk
    refine h (BitVec.eq_of_getLsbD_eq fun i _ => ?_)
    rw [BitVec.getLsbD_ushiftRight, BitVec.getLsbD_zero]
    by_cases hi : W + 1 + i < 33
    · simpa using hk (W + 1 + i) (by omega) hi
    · exact BitVec.getLsbD_of_ge _ _ (by omega)
  · rintro ⟨k, hWk, -, hk⟩ h
    have hbit := congrArg (fun v => v.getLsbD (k - (W + 1))) h
    simp [Nat.add_sub_cancel' (Nat.succ_le_of_lt hWk), hk] at hbit

theorem checkConfig_eq (w : Width) (p : Poly) :
    checkConfig w p =
      if w.toNat = 0 then some .widthZero
      else if 32 < w.toNat then some .widthTooLarge
      else if malformed w.toNat p then some .polyMalformed
      else none := by
  simp only [checkConfig, Config.wmin, Config.wmax, Nat.lt_one_iff, malformed_iff, ← ushiftRight_ne_zero_iff]

/-! ### What a start command raises (R144, R145) -/

theorem exec_startInstr_eq (kind : StartKind) (w : Width) (p : Poly) (s : State) :
    exec (startInstr kind w p) s = .next (start (startInstr kind w p).opcode (startMode kind) w p s) := by
  cases kind <;> rfl

theorem start_of_run (op : Opcode) (mode : Mode) (w : Width) (p : Poly) {s : State} (hp : s.phase = .run) :
    start op mode w p s = raise op .notIdle 0#8 s := by
  rw [start, hp]

theorem start_of_checkConfig (op : Opcode) (mode : Mode) {w : Width} {p : Poly} {s : State} {cause : Cause}
    (hp : s.phase = .idle) (hc : checkConfig w p = some cause) : start op mode w p s = raise op cause 0#8 s := by
  rw [start, hp, hc]

/-- From `S0` a raise adds its word and changes no field (R147). -/
theorem raise_of_isS0 (op : Opcode) (cause : Cause) (sym : Symbol) {s : State} (hs : s.isS0) :
    raise op cause sym s = { s with responses := s.responses ++ [errWord .none sym op cause] } := by
  obtain ⟨hp, hm, hw, hpoly, hreg, hcnt⟩ := hs
  simp only [raise, toIdle, emit, hp, hm, hw, hpoly, hreg, hcnt]

/-! ### The first applicable cause (R146) -/

/-- The cause a command raises in a state, in the order of R146. -/
def raisedCause (i : Instr) (s : State) : Option Cause :=
  match i with
  | .nop | .abort | .stat => none
  | .div w p | .enc w p | .ver w p => if s.phase = .run then some .notIdle else checkConfig w p
  | .push sym =>
    if s.phase = .idle then some .notRunning else if bitOf? sym = none then some .nonbinarySymbol else none
  | .endOp =>
    if s.phase = .idle then some .notRunning
    else if s.mode = .enc ∧ s.cnt = 0#6 then some .emptyData
    else if s.mode = .ver ∧ s.cnt.toNat < s.width.toNat then some .shortCodeword
    else none

theorem find?_cause_cons (c : Cause) (b : Bool) (rest : List (Cause × Bool)) :
    (((c, b) :: rest).find? fun x => x.2).map (fun x => x.1) =
      if b then some c else (rest.find? fun x => x.2).map fun x => x.1 := by
  cases b <;> rfl

/-- The slices of R142's conditions are the reserved fields of the three formats (R47 to R49). -/
theorem reserved_slices (cmd : Word) :
    cmd.extractLsb' 39 5 = rsvS cmd ∧ cmd.extractLsb' 8 36 = rsvP cmd ∧ cmd.extractLsb' 0 44 = rsvZ cmd :=
  ⟨rfl, rfl, rfl⟩

theorem firstCause_of_decode_error {cmd : Word} {e : DecodeError} (h : decode cmd = .error e) (s : State) :
    firstCause cmd s = some (decodeCause e) := by
  simp only [firstCause, causeConditions, find?_cause_cons, reserved_slices]
  unfold decode at h
  split at h
  case h_5 hop =>
    obtain ⟨hrsv, rfl⟩ := decodeP_eq_error_iff.mp h
    simp [hop, hrsv, decodeCause]
  case h_2 hop | h_3 hop | h_4 hop =>
    obtain ⟨hrsv, rfl⟩ := decodeS_eq_error_iff.mp h
    simp [hop, hrsv, decodeCause]
  case h_1 hop | h_6 hop | h_7 hop | h_8 hop =>
    obtain ⟨hrsv, rfl⟩ := decodeZ_eq_error_iff.mp h
    simp [hop, hrsv, decodeCause]
  case h_9 =>
    simp only [imp_false] at *
    have hop : 8 ≤ (opField cmd).toNat := by omega
    cases h
    rw [if_pos (decide_eq_true hop), decodeCause]

theorem firstCause_encode (i : Instr) (s : State) : firstCause (encode i) s = raisedCause i s := by
  simp only [firstCause, causeConditions, find?_cause_cons, reserved_slices, opField_encode]
  cases i with
  | nop | abort | stat => simp [Instr.opcode, raisedCause, encode, wordZ_fields]
  | div w p | enc w p | ver w p =>
    simp [Instr.opcode, raisedCause, encode, wordS_fields, checkConfig_eq, malformed]
  | push sym => simp [Instr.opcode, raisedCause, encode, wordP_fields, bitOf?_eq_none_iff]
  | endOp => simp [Instr.opcode, raisedCause, encode, wordZ_fields]

/-! ### What a word answers (R147) -/

/-- The answer R147 asks for, to a command with opcode `op` and symbol field `sym`: the raise of the cause, if one
applies, else a next state with no new `ERR` word. -/
def Answers (op : Opcode) (sym : Symbol) (s : State) (answer : Result) : Option Cause → Prop
  | some cause => answer = .next (raise op cause (if cause = .nonbinarySymbol then sym else 0#8) s)
  | none => ∃ t new, answer = .next t ∧ t.responses = s.responses ++ new ∧ ∀ rsp ∈ new, rspKind rsp ≠ kindErr

theorem rspKind_cwsymWord_ne_err (c : Symbol) : rspKind (cwsymWord c) ≠ kindErr := by
  rw [rspKind_cwsymWord]
  decide

theorem rspKind_doneWord_ne_err (mode : Mode) (width : Width) (rem : Rem) :
    rspKind (doneWord mode width rem) ≠ kindErr := by
  rw [rspKind_doneWord]
  decide

section Answers

variable (op : Opcode) (sym : Symbol)

theorem answers_raise (cause : Cause) (h : cause ≠ .nonbinarySymbol) (s : State) :
    Answers op sym s (.next (raise op cause 0#8 s)) (some cause) := by
  rw [Answers, if_neg h]

theorem answers_none {s t : State} {new : List Word} (h : t.responses = s.responses ++ new)
    (hnew : ∀ rsp ∈ new, rspKind rsp ≠ kindErr) : Answers op sym s (.next t) none :=
  ⟨t, new, rfl, h, hnew⟩

theorem answers_silent {s t : State} (h : t.responses = s.responses) : Answers op sym s (.next t) none :=
  answers_none op sym (new := []) (by rw [h, List.append_nil]) nofun

theorem answers_finish (rem : Rem) (s : State) : Answers op sym s (.next (finish rem s)) none :=
  answers_none op sym (finish_responses rem s) (List.forall_mem_singleton.mpr (rspKind_doneWord_ne_err _ _ _))

theorem checkConfig_ne_nonbinarySymbol (w : Width) (p : Poly) : checkConfig w p ≠ some .nonbinarySymbol := by
  rw [checkConfig_eq]
  split_ifs <;> nofun

theorem start_answers (mode : Mode) (w : Width) (p : Poly) (s : State) :
    Answers op sym s (.next (start op mode w p s)) (if s.phase = .run then some .notIdle else checkConfig w p) := by
  obtain ⟨hp, h⟩ | ⟨hp, cause, hc, h⟩ | ⟨hp, hc, h⟩ := start_cases op mode w p s <;> rw [h, hp]
  · exact answers_raise op sym .notIdle nofun s
  · have hne : cause ≠ .nonbinarySymbol := fun h => checkConfig_ne_nonbinarySymbol w p (h ▸ hc)
    rw [if_neg nofun, hc]
    exact answers_raise op sym cause hne s
  · rw [if_neg nofun, (checkConfig_eq_none_iff w p).mpr hc]
    exact answers_silent op sym rfl

end Answers

theorem execPush_answers (sym : Symbol) (s : State) :
    Answers 0x4#4 sym s (execPush sym s) (raisedCause (.push sym) s) := by
  obtain ⟨hp, h⟩ | ⟨hp, hb, h⟩ | ⟨hp, b, hb, h⟩ := execPush_cases sym s
  · have hcause : raisedCause (.push sym) s = some .notRunning := by simp [raisedCause, hp]
    rw [h, hcause]
    exact answers_raise _ sym .notRunning nofun s
  · have hcause : raisedCause (.push sym) s = some .nonbinarySymbol := by simp [raisedCause, hp, hb]
    rw [h, hcause]
    rfl
  · have hcause : raisedCause (.push sym) s = none := by simp [raisedCause, hp, hb]
    rw [h, hcause]
    split
    · exact answers_none _ sym (s := s) (new := [cwsymWord sym]) rfl
        (List.forall_mem_singleton.mpr (rspKind_cwsymWord_ne_err sym))
    · exact answers_silent _ sym rfl

theorem endEncode_answers (sym : Symbol) (s : State) :
    Answers 0x5#4 sym s (.next (endEncode s)) (if s.cnt = 0#6 then some .emptyData else none) := by
  unfold endEncode
  split
  · exact answers_raise _ sym .emptyData nofun s
  · refine answers_none _ sym (List.append_assoc ..) (List.forall_mem_append.mpr ⟨?_, ?_⟩)
    · exact List.forall_mem_map.mpr fun c _ => rspKind_cwsymWord_ne_err c
    · exact List.forall_mem_singleton.mpr (rspKind_doneWord_ne_err _ _ _)

theorem endVerify_answers (sym : Symbol) (s : State) :
    Answers 0x5#4 sym s (.next (endVerify s)) (if s.cnt.toNat < s.width.toNat then some .shortCodeword else none) := by
  unfold endVerify
  split
  · exact answers_raise _ sym .shortCodeword nofun s
  · exact answers_finish _ sym _ s

theorem execEnd_answers (sym : Symbol) {s : State} (hs : s.Inv) :
    Answers 0x5#4 sym s (execEnd s) (raisedCause .endOp s) := by
  obtain ⟨hp, h⟩ | ⟨hp, hm, -⟩ | ⟨hp, hm, h⟩ | ⟨hp, hm, h⟩ | ⟨hp, hm, h⟩ := execEnd_cases s
  · have hcause : raisedCause .endOp s = some .notRunning := by simp [raisedCause, hp]
    rw [h, hcause]
    exact answers_raise _ sym .notRunning nofun s
  · exact absurd hm (hs.2 hp).1
  · have hcause : raisedCause .endOp s = none := by simp [raisedCause, hp, hm]
    rw [h, hcause]
    exact answers_finish _ sym _ s
  · have hcause : raisedCause .endOp s = if s.cnt = 0#6 then some .emptyData else none := by
      simp [raisedCause, hp, hm]
    rw [h, hcause]
    exact endEncode_answers sym s
  · have hcause : raisedCause .endOp s =
        if s.cnt.toNat < s.width.toNat then some .shortCodeword else none := by
      simp [raisedCause, hp, hm]
    rw [h, hcause]
    exact endVerify_answers sym s

theorem exec_answers {s : State} (hs : s.Inv) (i : Instr) :
    Answers i.opcode (symField (encode i)) s (exec i s) (raisedCause i s) := by
  cases i with
  | nop | abort => exact answers_silent _ _ rfl
  | div w p | enc w p | ver w p => exact start_answers _ _ _ w p s
  | push sym =>
    obtain ⟨-, -, hsym⟩ := wordP_fields 0x4#4 sym
    rw [encode, hsym]
    exact execPush_answers sym s
  | endOp => exact execEnd_answers _ hs
  | stat =>
    refine answers_none _ _ (emit_responses _ s) (List.forall_mem_singleton.mpr ?_)
    rw [rspKind_statusWord]
    decide

theorem acceptWord_answers {s : State} (hs : s.Inv) (cmd : Word) :
    Answers (opField cmd) (symField cmd) s (acceptWord cmd s) (firstCause cmd s) := by
  cases hd : decode cmd with
  | ok i =>
    obtain rfl := encode_of_decode hd
    rw [acceptWord_of_decode hd, opField_encode, firstCause_encode]
    exact exec_answers hs i
  | error e =>
    rw [acceptWord_of_error hd, firstCause_of_decode_error hd]
    exact answers_raise _ _ (decodeCause e) (by cases e <;> nofun) s

/-! ### The words after which the core is in `RUN` (R152) -/

/-- The rows of R152 that end in `RUN`: a start command with a legal configuration in `IDLE`; `NOP`, `STAT` and the `PUSH`
of a binary symbol in `RUN`. -/
def LeadsToRun (i : Instr) (s : State) : Prop :=
  (s.phase = .idle ∧ ∃ kind w p, i = startInstr kind w p ∧ LegalConfig w.toNat p) ∨
  (s.phase = .run ∧ i ∈ [.nop, .stat, .push (symOf false), .push (symOf true)])

theorem exec_phase_run_iff {i : Instr} {s t : State} (h : exec i s = .next t) : t.phase = .run ↔ LeadsToRun i s := by
  constructor
  · intro ht
    cases exec_effect h with
    | nop => exact .inr ⟨ht, by simp⟩
    | stat => exact .inr ⟨ht, by simp⟩
    | abort => cases ht
    | closed => cases ht
    | opened kind w p hp hc => exact .inl ⟨hp, kind, w, p, rfl, hc⟩
    | accepted sym b _ hp hb =>
      rw [(bitOf?_eq_some_iff sym b).mp hb]
      exact .inr ⟨hp, by cases b <;> simp⟩
  · rintro (⟨hp, kind, w, p, rfl, hc⟩ | ⟨hp, hi⟩)
    · cases (exec_startInstr_of_idle kind hp hc).symm.trans h
      rfl
    · simp only [List.mem_cons, List.not_mem_nil, or_false] at hi
      obtain rfl | rfl | rfl | rfl := hi
      · cases h; exact hp
      · cases h; exact hp
      · cases (exec_push_symOf false hp).symm.trans h; exact hp
      · cases (exec_push_symOf true hp).symm.trans h; exact hp

/-- The words of those commands, as R152 is stated on words. -/
theorem leadsToRun_word_iff (cmd : Word) (s : State) :
    ((s.phase = .idle ∧ ∃ (op : Opcode) (w : Width) (p : Poly), op ∈ [0x1#4, 0x2#4, 0x3#4] ∧
        cmd = op ++ 0#5 ++ w ++ p ∧ LegalConfig w.toNat p) ∨
      (s.phase = .run ∧ cmd ∈ [0x000000000000#48, 0x700000000000#48, 0x400000000030#48, 0x400000000031#48])) ↔
    ∃ i, decode cmd = .ok i ∧ LeadsToRun i s := by
  simp only [decode_eq_ok_iff]
  constructor
  · rintro (⟨hp, op, w, p, hop, rfl, hc⟩ | ⟨hp, hcmd⟩)
    · simp only [List.mem_cons, List.not_mem_nil, or_false] at hop
      obtain rfl | rfl | rfl := hop
      · exact ⟨startInstr .div w p, rfl, .inl ⟨hp, .div, w, p, rfl, hc⟩⟩
      · exact ⟨startInstr .enc w p, rfl, .inl ⟨hp, .enc, w, p, rfl, hc⟩⟩
      · exact ⟨startInstr .ver w p, rfl, .inl ⟨hp, .ver, w, p, rfl, hc⟩⟩
    · obtain ⟨i, hi, hcmd⟩ := List.mem_map.mp
        (show cmd ∈ [Instr.nop, .stat, .push (symOf false), .push (symOf true)].map encode from hcmd)
      exact ⟨i, hcmd, .inr ⟨hp, hi⟩⟩
  · rintro ⟨i, rfl, ⟨hp, kind, w, p, rfl, hc⟩ | ⟨hp, hi⟩⟩
    · have hop : (startInstr kind w p).opcode ∈ [0x1#4, 0x2#4, 0x3#4] := by
        cases kind <;> simp [startInstr, Instr.opcode]
      exact .inl ⟨hp, _, w, p, hop, by cases kind <;> rfl, hc⟩
    · exact .inr ⟨hp, List.mem_map_of_mem hi⟩

theorem acceptWord_phase_run_iff {cmd : Word} {s t : State} (h : acceptWord cmd s = .next t) :
    t.phase = .run ↔ ∃ i, decode cmd = .ok i ∧ LeadsToRun i s := by
  cases hd : decode cmd with
  | ok i =>
    rw [acceptWord_of_decode hd] at h
    simpa using exec_phase_run_iff h
  | error e =>
    rw [acceptWord_of_error hd] at h
    cases h
    simp

end Sys2Proof.Machine

/-! ### The statements -/

namespace Sys2Proof.Proofs

open Sys2Proof Sys2Proof.Machine

/-- Settles O5: every step completes, and the given word is the one that decodes to `ABORT`. -/
theorem everyWordCompletesAndAbortRecovers : Obligations.EveryWordCompletesAndAbortRecovers := by
  refine fun s hs => ⟨step_completes hs, fun rest hc => ?_⟩
  have hstep : step s = exec .abort { s with commands := rest } :=
    (step_cons hc).trans (acceptWord_of_decode (decode_encode .abort) _)
  exact ⟨_, hstep, toIdle_isS0 _, rfl, rfl⟩

/-- Settles O26: `checkConfig` in the cases of the rule; from `S0` a raise changes no field, and an operation opens with
`REG` and `CNT` already zero. -/
theorem configurationCheckInOrder : Obligations.ConfigurationCheckInOrder := by
  intro kind w p s hs i raised malformedPoly
  have hraise : ∀ cause, checkConfig w p = some cause → exec i s = .next (raised cause.byte) := fun cause hc => by
    rw [exec_startInstr_eq, start_of_checkConfig _ _ hs.1 hc, raise_of_isS0 _ _ _ hs]
    rfl
  refine ⟨fun hw => hraise .widthZero ?_, fun hw => hraise .widthTooLarge ?_,
    fun hlo hhi hp => hraise .polyMalformed ?_, fun hlo hhi hp => ?_⟩
  · simp [checkConfig_eq, hw]
  · rw [checkConfig_eq, if_neg (by omega), if_pos hw]
  · rw [checkConfig_eq, if_neg (by omega), if_neg (by omega), if_pos (malformed_iff.mpr hp)]
  · have hc : checkConfig w p = none := by
      rw [checkConfig_eq, if_neg (by omega), if_neg (by omega), if_neg (malformed_iff.not.mpr hp)]
    obtain ⟨hphase, -, -, -, hreg, hcnt⟩ := hs
    rw [exec_startInstr_of_idle kind hphase ((checkConfig_eq_none_iff w p).mp hc), openOperation, ← hreg, ← hcnt]

/-- Settles O49: `firstCause` does not read the waiting words, and the word's answer is the one its first cause asks
for. -/
theorem firstApplicableCauseIsRaised : Obligations.FirstApplicableCauseIsRaised := by
  intro s cmd rest hs hc
  have hanswer : Answers (opField cmd) (symField cmd) { s with commands := rest } (step s) (firstCause cmd s) :=
    step_cons hc ▸ acceptWord_answers (s := { s with commands := rest }) hs cmd
  cases hcause : firstCause cmd s <;> rw [hcause] at hanswer <;> exact hanswer

/-- Settles O51: a word leads to `RUN` exactly if it is the word of a command that does. -/
theorem phaseTransitionsAreTheTable : Obligations.PhaseTransitionsAreTheTable := by
  refine ⟨fun s t cmd rest _ hc h => ?_, fun s t hc h => ?_, fun e p q hrst h => ?_⟩
  · rw [leadsToRun_word_iff]
    exact acceptWord_phase_run_iff (s := { s with commands := rest }) ((step_cons hc).symm.trans h)
  · cases (step_nil hc).symm.trans h
    rfl
  · rw [clockEdge, if_pos hrst] at h
    cases h
    exact ⟨rfl, rfl⟩

/-- Settles O16: the ten bytes have no duplicate, so the table does not give two causes one byte. -/
theorem causeBytesAreTheTable : Obligations.CauseBytesAreTheTable := by
  have hbytes : causes.map Cause.byte =
      [0x11#8, 0x12#8, 0x13#8, 0x21#8, 0x22#8, 0x23#8, 0x31#8, 0x32#8, 0x41#8, 0x42#8] := rfl
  have hnodup : (causes.map Cause.byte).Nodup := by
    rw [hbytes]
    decide
  exact ⟨hbytes, fun c d h => List.inj_on_of_nodup_map hnodup (mem_causes c) (mem_causes d) h⟩

/-- Settles O50: neither raise looks at the operands. -/
theorem illegalSequenceNeedsOnlyThePhase : Obligations.IllegalSequenceNeedsOnlyThePhase := by
  refine fun kind w p sym s => ⟨fun hp => ?_, fun hp => ⟨exec_push_of_idle sym hp, exec_endOp_of_idle hp⟩⟩
  rw [exec_startInstr_eq, start_of_run _ _ _ _ hp]
  rfl

end Sys2Proof.Proofs

/-! Proofs, family "Reset and hazards": commands queued in `S0`, the ways a well-formed operation fails and the trace of
each, and what a host reads from a trace without `DONE`; then the statements of 70_reset_and_hazards.md. -/

namespace Sys2Proof.Machine

/-! ### Queued commands (R173) -/

theorem emitAll_emitAll (a b : List Word) (s : State) : emitAll b (emitAll a s) = emitAll (a ++ b) s :=
  congrArg (fun rsps => { s with responses := rsps }) (List.append_assoc ..)

/-- A `PUSH` or `END` in `S0` adds its `NOT_RUNNING` and changes no field (R145, R147). -/
theorem exec_push_or_endOp_of_isS0 {i : Instr} {s : State} (hs : s.isS0) (hi : i = .endOp ∨ ∃ sym, i = .push sym) :
    exec i s = .next (emitAll [errWord .none 0#8 i.opcode .notRunning] s) := by
  have ⟨hidle, _⟩ := hs
  obtain rfl | ⟨sym, rfl⟩ := hi
  · exact (exec_endOp_of_idle hidle).trans (congrArg _ (raise_of_isS0 _ _ _ hs))
  · exact (exec_push_of_idle sym hidle).trans (congrArg _ (raise_of_isS0 _ _ _ hs))

theorem runWords_push_or_endOp_of_isS0 (cmds : List Instr) {s : State} (hs : s.isS0)
    (hcmds : ∀ i ∈ cmds, i = .endOp ∨ ∃ sym, i = .push sym) :
    runWords (cmds.map encode) s =
      .next ((emitAll (cmds.map fun i => errWord .none 0#8 i.opcode .notRunning) s).withCommands []) := by
  induction cmds generalizing s with
  | nil => rw [List.map_nil, List.map_nil, runWords_nil, emitAll_nil, State.withCommands]
  | cons i cmds ih =>
    obtain ⟨hi, hcmds⟩ := List.forall_mem_cons.mp hcmds
    have haccept := (acceptWord_of_decode (decode_encode i) _).trans
      (exec_push_or_endOp_of_isS0 (s := s.withCommands (cmds.map encode)) hs hi)
    have hs' : (emitAll [errWord .none 0#8 i.opcode .notRunning] (s.withCommands (cmds.map encode))).isS0 := hs
    rw [List.map_cons, runWords_cons_next haccept rfl, ih hs' hcmds, emitAll_emitAll]
    rfl

/-! ### The symbols of a part of a body (R171) -/

theorem symbolsOf_append (a b : List Instr) : symbolsOf (a ++ b) = symbolsOf a ++ symbolsOf b := by
  induction a with
  | nil => rfl
  | cons i a ih => rw [List.cons_append, symbolsOf_cons, ih, symbolsOf_cons i a, List.append_assoc]

/-- A place in the symbols of a body is a `PUSH` in the body. -/
theorem exists_push_of_symbolsOf_eq {body : List Instr} {before left : BitSequence} {sym : Symbol}
    (h : symbolsOf body = before ++ sym :: left) :
    ∃ a b, body = a ++ .push sym :: b ∧ symbolsOf a = before ∧ symbolsOf b = left := by
  induction body generalizing before with
  | nil => simp [symbolsOf] at h
  | cons i body ih =>
    cases i with
    | push first =>
      cases before with
      | nil =>
        obtain ⟨rfl, rfl⟩ := List.cons.inj h
        exact ⟨[], body, rfl, rfl, rfl⟩
      | cons _ before =>
        obtain ⟨rfl, hrest⟩ := List.cons.inj h
        obtain ⟨a, b, rfl, rfl, rfl⟩ := ih hrest
        exact ⟨.push first :: a, b, rfl, rfl, rfl⟩
    | _ =>
      obtain ⟨a, b, rfl, rfl, rfl⟩ := ih h
      exact ⟨_ :: a, b, rfl, rfl, rfl⟩

/-- The words of the commands left of an operation that failed: one `NOT_RUNNING` for each `PUSH` and for the `END`. -/
def leftErrors (left : BitSequence) : List Word :=
  (left.map fun _ => errWord .none 0#8 0x4#4 .notRunning) ++ [errWord .none 0#8 0x5#4 .notRunning]

theorem notRunningErrors_body_endOp {body : List Instr} (hbody : ∀ i ∈ body, i.isBody = true) :
    notRunningErrors (body ++ [.endOp]) = leftErrors (symbolsOf body) := by
  induction body with
  | nil => rfl
  | cons i body ih =>
    obtain ⟨hi, hbody⟩ := List.forall_mem_cons.mp hbody
    rw [List.cons_append, ← List.singleton_append, notRunningErrors_append, ih hbody]
    cases i with
    | push | nop | stat => rfl
    | div | enc | ver | endOp | abort => cases hi

theorem isBody_or_endOp_of_mem {body : List Instr} (hbody : ∀ i ∈ body, i.isBody = true) :
    ∀ i ∈ body ++ [Instr.endOp], i.isBody = true ∨ i = .endOp :=
  List.forall_mem_append.mpr ⟨fun i hi => .inl (hbody i hi), List.forall_mem_singleton.mpr (.inr rfl)⟩

/-! ### The trace of a run -/

/-- The run over `words` from `s` ends in `S0` with the new responses `trace`, `STATUS` words apart. -/
def Traces (words : List Word) (s : State) (trace : List Word) : Prop :=
  ∃ t new, runWords words s = .next t ∧ t.isS0 ∧ t.responses = s.responses ++ new ∧ withoutStatus new = trace

theorem Traces.unique {words : List Word} {s t : State} {new trace : List Word} (h : Traces words s trace)
    (hrun : runWords words s = .next t) (hnew : t.responses = s.responses ++ new) : withoutStatus new = trace := by
  obtain ⟨t', new', hrun', -, hnew', htrace⟩ := h
  obtain ⟨rfl, rfl⟩ := runWords_unique hrun hnew hrun' hnew'
  exact htrace

/-! ### The ways a well-formed operation fails (R171) -/

/-- The failures of an operation over `syms`, each with its trace: of the configuration, at the first non-binary symbol,
of an encoding without data, of a verification of fewer than `W` symbols. -/
inductive Failure (kind : StartKind) (w : Width) (p : Poly) (syms : BitSequence) : List Word → Prop
  | configuration {cause : Cause} (hc : checkConfig w p = some cause) :
      Failure kind w p syms (errWord .none 0#8 (startInstr kind w p).opcode cause :: leftErrors syms)
  | symbol {before left : BitSequence} {bad : Symbol} {bs : List Bool} (hc : LegalConfig w.toNat p)
      (hsyms : syms = before ++ bad :: left) (hbefore : before = bs.map symOf) (hbad : bitOf? bad = none) :
      Failure kind w p syms
        (echoes (startMode kind) before ++ errWord (startMode kind) bad 0x4#4 .nonbinarySymbol :: leftErrors left)
  | emptyData (hc : LegalConfig w.toNat p) (hkind : kind = .enc) (hsyms : syms = []) :
      Failure kind w p syms [errWord .enc 0#8 0x5#4 .emptyData]
  | shortCodeword {bs : List Bool} (hc : LegalConfig w.toNat p) (hkind : kind = .ver) (hsyms : syms = bs.map symOf)
      (hn : bs.length < w.toNat) : Failure kind w p syms [errWord .ver 0#8 0x5#4 .shortCodeword]

/-- An operation that fails leaves the trace of its failure. -/
theorem Failure.traces {kind : StartKind} {w : Width} {p : Poly} {body : List Instr} {trace : List Word} {s : State}
    (h : Failure kind w p (symbolsOf body) trace) (hs : s.isS0) (hbody : ∀ i ∈ body, i.isBody = true) :
    Traces (operationWords kind w p body) s trace := by
  have ⟨hidle, hmode, _⟩ := hs
  rw [operationWords_eq]
  cases h with
  | configuration hc =>
    have hraise := (exec_startInstr_eq kind w p s).trans (congrArg _ (start_of_checkConfig _ _ hidle hc))
    rw [← notRunningErrors_body_endOp hbody, ← hmode]
    exact runWords_raise_queued hraise (isBody_or_endOp_of_mem hbody)
  | symbol hc hsyms hbefore hbad =>
    obtain ⟨a, b, rfl, rfl, rfl⟩ := exists_push_of_symbolsOf_eq hsyms
    obtain ⟨ha, hb⟩ := List.forall_mem_append.mp hbody
    obtain ⟨-, hb⟩ := List.forall_mem_cons.mp hb
    rw [← notRunningErrors_body_endOp hb, List.append_assoc, List.cons_append]
    exact runWords_operation_raise kind hs hc ha hbefore (fun t hopen => exec_push_nonbinary hopen.phase hbad)
      (isBody_or_endOp_of_mem hb)
  | emptyData hc hkind hsyms =>
    subst hkind
    have hrun := runWords_operation_raise .enc (bs := []) (queued := []) hs hc hbody hsyms
      (fun t => exec_endOp_encoding_nil) nofun
    rw [hsyms] at hrun
    exact hrun
  | shortCodeword hc hkind hsyms hn =>
    subst hkind
    exact runWords_operation_raise .ver (queued := []) hs hc hbody hsyms
      (fun t hopen => exec_endOp_ver_short hopen hn) nofun

theorem checkConfig_mem {w : Width} {p : Poly} {cause : Cause} (h : checkConfig w p = some cause) :
    cause ∈ [.widthZero, .widthTooLarge, .polyMalformed] := by
  rw [checkConfig_eq] at h
  split_ifs at h <;> cases h <;> simp

/-- The trace of a failure: echoes, an `ERR` of class `InvalidInput` or `InvalidConfig`, then `NOT_RUNNING` alone. -/
theorem Failure.trace_eq {kind : StartKind} {w : Width} {p : Poly} {syms : BitSequence} {trace : List Word}
    (h : Failure kind w p syms trace) :
    ∃ before mode sym op cause queued,
      trace = echoes (startMode kind) before ++ errWord mode sym op cause :: queued ∧
      (cause.errorClass = .invalidInput ∨ cause.errorClass = .invalidConfig) ∧
      ∀ r ∈ queued, ∃ op, r = errWord .none 0#8 op .notRunning := by
  have hleft : ∀ left, ∀ r ∈ leftErrors left, ∃ op, r = errWord .none 0#8 op .notRunning := fun left =>
    List.forall_mem_append.mpr ⟨List.forall_mem_map.mpr fun _ _ => ⟨_, rfl⟩, List.forall_mem_singleton.mpr ⟨_, rfl⟩⟩
  have hnil : echoes (startMode kind) [] = [] := echoes_nil _
  cases h with
  | configuration hc =>
    have hclass : ∀ c ∈ [Cause.widthZero, .widthTooLarge, .polyMalformed], c.errorClass = .invalidConfig := by decide
    exact ⟨[], _, _, _, _, _, by rw [hnil]; rfl, .inr (hclass _ (checkConfig_mem hc)), hleft _⟩
  | symbol => exact ⟨_, _, _, _, _, _, rfl, .inl rfl, hleft _⟩
  | emptyData => exact ⟨[], _, _, _, _, [], by rw [hnil]; rfl, .inl rfl, nofun⟩
  | shortCodeword => exact ⟨[], _, _, _, _, [], by rw [hnil]; rfl, .inl rfl, nofun⟩

theorem exceptMap_unit_eq_ok_iff {ε α : Type} {x : Except ε α} : (x.map fun _ => ()) = .ok () ↔ ∃ a, x = .ok a := by
  cases x <;> simp [Except.map]

/-- Under a legal configuration the call succeeds over binary symbols, at least one for `ENC`, at least `W` for `VER`. -/
theorem referenceCall_eq_ok_iff {kind : StartKind} {W : Nat} {p : Poly} (hc : LegalConfig W p) {syms : BitSequence} :
    referenceCall kind syms p W = .ok () ↔
      ∃ bits, syms = bits.map symOf ∧ (kind = .enc → bits ≠ []) ∧ (kind = .ver → W ≤ bits.length) := by
  have ⟨hlo, hhi, _⟩ := hc
  cases kind with
  | div => simp [referenceCall, exceptMap_unit_eq_ok_iff, divide_eq_ok_iff, hlo, hhi]
  | enc => simp [referenceCall, exceptMap_unit_eq_ok_iff, encodeData_eq_ok_iff, hlo, hhi, and_comm]
  | ver =>
    simp only [referenceCall, exceptMap_unit_eq_ok_iff, verify_eq_ok_iff, divide_eq_ok_iff]
    constructor
    · rintro ⟨_, hn, _, ⟨bits, rfl, -⟩, -⟩
      exact ⟨bits, rfl, nofun, fun _ => by rwa [List.length_map] at hn⟩
    · rintro ⟨bits, rfl, -, hn⟩
      exact ⟨_, by rw [List.length_map]; exact hn trivial, _, ⟨bits, rfl, ⟨hlo, hhi⟩, rfl⟩, rfl⟩

theorem Failure.referenceCall_ne {kind : StartKind} {w : Width} {p : Poly} {syms : BitSequence} {trace : List Word}
    (h : Failure kind w p syms trace) (hc : LegalConfig w.toNat p) : referenceCall kind syms p w.toNat ≠ .ok () := by
  rw [ne_eq, referenceCall_eq_ok_iff hc]
  rintro ⟨bits, hbits, henc, hver⟩
  cases h with
  | configuration hcause => cases hcause.symm.trans ((checkConfig_eq_none_iff w p).mpr hc)
  | symbol _ hsyms _ hbad =>
    obtain ⟨_, _, rfl, -, hrest⟩ := List.map_eq_append_iff.mp (hbits.symm.trans hsyms)
    obtain ⟨b, _, rfl, rfl, -⟩ := List.map_eq_cons_iff.mp hrest
    cases (bitOf?_symOf b).symm.trans hbad
  | emptyData _ hkind hsyms => exact henc hkind (List.map_eq_nil_iff.mp (hbits.symm.trans hsyms))
  | shortCodeword _ hkind hsyms hn =>
    obtain rfl := List.map_injective_iff.mpr (fun _ _ => symOf_injective) (hbits.symm.trans hsyms)
    exact absurd (hver hkind) hn.not_ge

/-- An operation fails in one of these ways, or its configuration is legal and its call succeeds. -/
theorem exists_failure_or_ok (kind : StartKind) (w : Width) (p : Poly) (body : List Instr) :
    (∃ trace, Failure kind w p (symbolsOf body) trace) ∨
      (LegalConfig w.toNat p ∧ referenceCall kind (symbolsOf body) p w.toNat = .ok ()) := by
  cases hcfg : checkConfig w p with
  | some cause => exact .inl ⟨_, .configuration hcfg⟩
  | none =>
    have hc := (checkConfig_eq_none_iff w p).mp hcfg
    cases hbits : bitsOf? (symbolsOf body) with
    | none =>
      obtain ⟨a, b, sym, bs, rfl, ha, hsym⟩ := exists_first_nonbinary hbits
      exact .inl ⟨_, .symbol hc (symbolsOf_append a (.push sym :: b)) ha hsym⟩
    | some bits =>
      have hsyms := (bitsOf?_eq_some_iff _ _).mp hbits
      by_cases hempty : kind = .enc ∧ bits = []
      · obtain ⟨hkind, rfl⟩ := hempty
        exact .inl ⟨_, .emptyData hc hkind hsyms⟩
      by_cases hshort : kind = .ver ∧ bits.length < w.toNat
      · obtain ⟨hkind, hn⟩ := hshort
        exact .inl ⟨_, .shortCodeword hc hkind hsyms hn⟩
      exact .inr ⟨hc, (referenceCall_eq_ok_iff hc).mpr
        ⟨bits, hsyms, not_and.mp hempty, fun h => not_lt.mp (not_and.mp hshort h)⟩⟩

/-! ### An operation whose call succeeds (R171) -/

/-- `END` then reports a remainder, in `ENC` mode after the symbols of the CRC (R78, R94, R102). -/
theorem exec_endOp_succeeds {kind : StartKind} {w : Width} {p : Poly} {bits : List Bool} {s : State}
    (h : s.InOperation (startMode kind) w p bits) (hc : LegalConfig w.toNat p) (henc : kind = .enc → bits ≠ [])
    (hver : kind = .ver → w.toNat ≤ bits.length) :
    ∃ crc rem, exec .endOp s = .next (finish rem (emitAll (echoes (startMode kind) crc) s)) := by
  cases kind with
  | div => exact ⟨[], _, (exec_endOp_div h.phase h.mode).trans (by rw [echoes_nil, emitAll_nil])⟩
  | enc => exact ⟨_, _, exec_endOp_encoding h (henc rfl)⟩
  | ver =>
    obtain ⟨-, hW, -⟩ := hc
    exact ⟨[], _, (exec_endOp_of_ne_enc h nofun hW (hver rfl)).trans (by rw [echoes_nil, emitAll_nil])⟩

theorem traces_of_referenceCall_ok {kind : StartKind} {w : Width} {p : Poly} {body : List Instr} {s : State}
    (hs : s.isS0) (hc : LegalConfig w.toNat p) (hbody : ∀ i ∈ body, i.isBody = true)
    (hok : referenceCall kind (symbolsOf body) p w.toNat = .ok ()) :
    ∃ syms rem, Traces (operationWords kind w p body) s
      (echoes (startMode kind) syms ++ [doneWord (startMode kind) w rem]) := by
  obtain ⟨bits, hsyms, henc, hver⟩ := (referenceCall_eq_ok_iff hc).mp hok
  obtain ⟨t, new, hrun, hcommands, hopen, hnew, hecho⟩ := runWords_start_body kind hs hc hbody hsyms
  obtain ⟨crc, rem, hend⟩ := exec_endOp_succeeds hopen hc henc hver
  refine ⟨symbolsOf body ++ crc, rem, _, new ++ (echoes (startMode kind) crc ++ [doneWord (startMode kind) w rem]),
    runWords_operation hrun hcommands hend, toIdle_isS0 _, ?_, ?_⟩
  · rw [finish_responses, emitAll_responses, emitAll_mode, emitAll_width, hnew, hopen.mode, hopen.width,
      List.append_assoc, List.append_assoc]
  · rw [withoutStatus_append, withoutStatus_append, hecho, withoutStatus_echoes, withoutStatus_doneWord, echoes_append,
      List.append_assoc]

/-! ### The `ERR` words of a trace (R171) -/

/-- The classes an `ERR` word of a well-formed operation can have: `InvalidInput`, `InvalidConfig`, or the cause
`NOT_RUNNING`. -/
def LegalErr (r : Word) : Prop := r.extractLsb' 4 4 = 1#4 ∨ r.extractLsb' 4 4 = 2#4 ∨ rspCause r = 0x42#8

theorem legalErr_errWord {mode : Mode} {sym : Symbol} {op : Opcode} {cause : Cause}
    (h : cause.errorClass = .invalidInput ∨ cause.errorClass = .invalidConfig) :
    LegalErr (errWord mode sym op cause) := by
  obtain ⟨-, -, -, -, hcode, -⟩ := errWord_fields mode sym op cause
  rw [LegalErr, hcode]
  obtain h | h := h <;> rw [h]
  · exact .inl rfl
  · exact .inr (.inl rfl)

theorem legalErr_notRunning (mode : Mode) (sym : Symbol) (op : Opcode) : LegalErr (errWord mode sym op .notRunning) :=
  .inr (.inr (rspCause_errWord ..))

/-- `STATUS` words are no `ERR`. -/
theorem mem_withoutStatus_of_err {r : Word} {rsps : List Word} (hr : r ∈ rsps) (hkind : rspKind r = kindErr) :
    r ∈ withoutStatus rsps :=
  mem_withoutStatus.mpr ⟨hr, by rw [hkind]; decide⟩

theorem rspKind_ne_err_of_mem_echoes {r : Word} {mode : Mode} {syms : BitSequence} (h : r ∈ echoes mode syms) :
    rspKind r ≠ kindErr := by
  rw [rspKind_of_mem_echoes h]
  decide

/-- The trace of an operation that fails holds an `ERR`, and every `ERR` in it is one of `LegalErr`. -/
theorem Failure.errs {kind : StartKind} {w : Width} {p : Poly} {syms : BitSequence} {new : List Word}
    (h : Failure kind w p syms (withoutStatus new)) :
    (∃ r ∈ new, rspKind r = kindErr) ∧ ∀ r ∈ new, rspKind r = kindErr → LegalErr r := by
  obtain ⟨before, mode, sym, op, cause, queued, htrace, hclass, hqueued⟩ := h.trace_eq
  constructor
  · have hmem : errWord mode sym op cause ∈ withoutStatus new := htrace ▸ List.mem_append_right _ List.mem_cons_self
    exact ⟨_, (mem_withoutStatus.mp hmem).1, rspKind_errWord ..⟩
  · intro r hr hkind
    have hmem := mem_withoutStatus_of_err hr hkind
    rw [htrace, List.mem_append, List.mem_cons] at hmem
    obtain hecho | rfl | hleft := hmem
    · exact absurd hkind (rspKind_ne_err_of_mem_echoes hecho)
    · exact legalErr_errWord hclass
    · obtain ⟨op, rfl⟩ := hqueued r hleft
      exact legalErr_notRunning ..

theorem rspKind_ne_err_of_done_trace {new : List Word} {mode mode' : Mode} {syms : BitSequence} {w : Width} {rem : Rem}
    (h : withoutStatus new = echoes mode syms ++ [doneWord mode' w rem]) : ∀ r ∈ new, rspKind r ≠ kindErr := by
  intro r hr hkind
  have hmem := mem_withoutStatus_of_err hr hkind
  rw [h, List.mem_append, List.mem_singleton] at hmem
  obtain hecho | rfl := hmem
  · exact rspKind_ne_err_of_mem_echoes hecho hkind
  · exact rspKind_doneWord_ne_err _ _ _ hkind

/-- A well-formed operation from `S0` ends there (R171). Under a legal configuration it emits an `ERR` exactly if its
call fails; every `ERR` is one of `LegalErr`. -/
theorem runWords_operation_errs (kind : StartKind) (w : Width) (p : Poly) {body : List Instr} {s : State} (hs : s.isS0)
    (hbody : ∀ i ∈ body, i.isBody = true) :
    ∃ t new, runWords (operationWords kind w p body) s = .next t ∧ t.isS0 ∧ t.responses = s.responses ++ new ∧
      (LegalConfig w.toNat p →
        ((∃ r ∈ new, rspKind r = kindErr) ↔ referenceCall kind (symbolsOf body) p w.toNat ≠ .ok ())) ∧
      ∀ r ∈ new, rspKind r = kindErr → LegalErr r := by
  obtain ⟨trace, hfail⟩ | ⟨hc, hok⟩ := exists_failure_or_ok kind w p body
  · obtain ⟨t, new, hrun, hidle, hnew, rfl⟩ := hfail.traces hs hbody
    obtain ⟨herr, hlegal⟩ := hfail.errs
    exact ⟨t, new, hrun, hidle, hnew, fun hc => iff_of_true herr (hfail.referenceCall_ne hc), hlegal⟩
  · obtain ⟨syms, rem, t, new, hrun, hidle, hnew, htrace⟩ := traces_of_referenceCall_ok hs hc hbody hok
    have hnone := rspKind_ne_err_of_done_trace htrace
    refine ⟨t, new, hrun, hidle, hnew, fun _ => iff_of_false ?_ (not_not_intro hok),
      fun r hr hkind => absurd hkind (hnone r hr)⟩
    rintro ⟨r, hr, hkind⟩
    exact hnone r hr hkind

theorem echoes_startMode (kind : StartKind) (syms : BitSequence) :
    echoes (startMode kind) syms = if kind = .enc then syms.map cwsymWord else [] := by
  cases kind <;> rfl

/-! ### What a host reads from a trace without `DONE` (R174) -/

theorem deliveredCodeword?_of_noDone {rsps : List Word} (h : ∀ r ∈ rsps, rspKind r ≠ kindDone) :
    deliveredCodeword? rsps = none := by
  by_contra hsome
  obtain ⟨c, hc⟩ := Option.ne_none_iff_exists'.mp hsome
  obtain ⟨⟨rsp, hlast, hkind, -⟩, -⟩ := (deliveredCodeword?_eq_some_iff rsps c).mp hc
  exact h rsp (mem_withoutStatus.mp (List.mem_of_getLast? hlast)).1 hkind

/-- The symbols of a trace that ends in the `DONE` of an encoding. -/
theorem deliveredCodeword?_of_trace {new : List Word} {syms : BitSequence} {w : Width} {rem : Rem}
    (h : withoutStatus new = syms.map cwsymWord ++ [doneWord .enc w rem]) : deliveredCodeword? new = some syms :=
  (deliveredCodeword?_eq_some_iff _ _).mpr
    ⟨⟨_, by rw [h, List.getLast?_concat], rspKind_doneWord .., rspMode_doneWord ..⟩, cwsymSymbols_of_trace h⟩

/-- A start command and a body emit no `DONE`, whether the body fails or not. -/
theorem runWords_start_body_noDone (kind : StartKind) {w : Width} {p : Poly} {body : List Instr} {s : State}
    (hs : s.isS0) (hc : LegalConfig w.toNat p) (hbody : ∀ i ∈ body, i.isBody = true) :
    ∃ t new, runWords (encode (startInstr kind w p) :: body.map encode) s = .next t ∧ t.responses = s.responses ++ new ∧
      ∀ r ∈ new, rspKind r ≠ kindDone := by
  cases hbits : bitsOf? (symbolsOf body) with
  | none =>
    obtain ⟨a, b, sym, bs, rfl, ha, hsym⟩ := exists_first_nonbinary hbits
    obtain ⟨hbefore, hrest⟩ := List.forall_mem_append.mp hbody
    obtain ⟨-, hqueued⟩ := List.forall_mem_cons.mp hrest
    obtain ⟨t, new, hrun, -, hnew, htrace⟩ := runWords_operation_raise kind hs hc hbefore ha
      (fun t hopen => exec_push_nonbinary hopen.phase hsym) (fun i hi => .inl (hqueued i hi))
    exact ⟨t, new, hrun, hnew, (noDone_of_raise_trace htrace).1⟩
  | some bits =>
    obtain ⟨t, new, hrun, -, -, hnew, hecho⟩ :=
      runWords_start_body kind hs hc hbody ((bitsOf?_eq_some_iff _ _).mp hbits)
    refine ⟨t, new, hrun, hnew, fun r hr hkind => ?_⟩
    have hmem : r ∈ withoutStatus new := mem_withoutStatus.mpr ⟨hr, by rw [hkind]; decide⟩
    cases (rspKind_of_mem_echoes (hecho ▸ hmem)).symm.trans hkind

/-- `ABORT` drops whatever operation is open, without a response (R111). -/
theorem runWords_abort (s : State) : runWords [encode .abort] s = .next ((toIdle s).withCommands []) :=
  runWords_cons_next (t := toIdle (s.withCommands [])) (acceptWord_of_decode (decode_encode .abort) _) rfl

end Sys2Proof.Machine

/-! ### The statements -/

namespace Sys2Proof.Proofs

open Sys2Proof Sys2Proof.Machine

/-- Settles O53: each clause names a way to fail, whose trace is the run's; the counts of `ERR` words are those of
`runWords_operation_errs`. -/
theorem wellFormedOperationErrors : Obligations.WellFormedOperationErrors := by
  intro kind w p body s hs hbody err echoed syms
  obtain ⟨t, new, hrun, hidle, hnew, hiff, hlegal⟩ := runWords_operation_errs kind w p hs hbody
  have htrace : ∀ {trace}, Failure kind w p syms trace → withoutStatus new = trace :=
    fun hfail => (hfail.traces hs hbody).unique hrun hnew
  refine ⟨t, new, hrun, hidle, hnew, fun hc => ?_, fun hc before left bad hsyms hbefore h0 h1 => ?_,
    fun hc hkind hsyms => htrace (.emptyData hc hkind hsyms), fun hc hkind hbin hn => ?_, hiff, hlegal⟩
  · obtain ⟨cause, hcause⟩ := Option.ne_none_iff_exists'.mp ((checkConfig_eq_none_iff w p).not.mpr hc)
    exact ⟨cause.byte, List.mem_map_of_mem (f := Cause.byte) (checkConfig_mem hcause), htrace (.configuration hcause)⟩
  · obtain ⟨bs, hbs⟩ := Option.isSome_iff_exists.mp hbefore
    rw [htrace (.symbol hc hsyms ((bitsOf?_eq_some_iff _ _).mp hbs) ((bitOf?_eq_none_iff bad).mpr ⟨h0, h1⟩)),
      echoes_startMode]
    rfl
  · obtain ⟨bs, hbs⟩ := Option.isSome_iff_exists.mp hbin
    have hbits := (bitsOf?_eq_some_iff _ _).mp hbs
    rw [hbits, List.length_map] at hn
    exact htrace (.shortCodeword hc hkind hbits hn)

/-- Settles O54, by `runWords_push_or_endOp_of_isS0`: the statement writes out `errWord` with the cause byte 0x42. -/
theorem queuedCommandsEchoNotRunning : Obligations.QueuedCommandsEchoNotRunning :=
  fun cmds _ hs hcmds => runWords_push_or_endOp_of_isS0 cmds hs hcmds

/-- Settles O60: where `encode` fails no `DONE` arrives, and none before an `ABORT`. -/
theorem codewordIsCompleteOnlyWithDone : Obligations.CodewordIsCompleteOnlyWithDone := by
  intro w p body s hs hc hbody
  have ⟨hlo, hhi, _⟩ := hc
  constructor
  · obtain hfail | ⟨r, henc⟩ := encodeData_invalidInput_or_ok (symbolsOf body) p ⟨hlo, hhi⟩
    · obtain ⟨t, new, hrun, -, hnew, hnone, -⟩ := failedEncodingDeliversNoResult w p body s hs hc hbody hfail
      refine ⟨t, new, hrun, hnew, fun c => ?_⟩
      rw [deliveredCodeword?_of_noDone hnone, hfail]
      simp
    · obtain ⟨t, new, rem, hrun, -, hnew, htrace, -⟩ := encOperationComputesEncode w p body r s hs hc hbody henc
      refine ⟨t, new, hrun, hnew, fun c => ?_⟩
      rw [deliveredCodeword?_of_trace htrace, henc]
      cases r
      simp
  · obtain ⟨t, new, hrun, hnew, hnone⟩ := runWords_start_body_noDone .enc hs hc hbody
    exact ⟨_, new, (runWords_append _ hrun).trans (runWords_abort t), hnew, deliveredCodeword?_of_noDone hnone⟩

/-- Settles O55: neither transfer happens while `rst = 1`, and the edge answers the reset state. -/
theorem resetEdgeDropsEverything : Obligations.ResetEdgeDropsEverything := by
  intro e p hrst _
  exact ⟨by simp [Edge.takesCommand, hrst], by simp [Edge.takesResponse, hrst], PortState.reset, if_pos hrst,
    State.reset_isS0, rfl, rfl, rfl⟩

end Sys2Proof.Proofs
